-- ==== Sys2Proof/Word.lean ====
section
/-! DEFINITION. The value types of the block and the plainest arithmetic on them (spec/00_scope.md R8, R9; spec/20_memory.md R51). -/

namespace Sys2Proof

/-- One byte of the DATA RAM (spec/10_state.md R32). -/
abbrev Byte := BitVec 8

/-- One entry of the WORD RAM (spec/10_state.md R33, spec/30_encoding.md R84). -/
abbrev Entry := BitVec 16

/-- One bus word, and one register as the bus sees it (spec/20_memory.md R51, spec/10_state.md R22). -/
abbrev Word := BitVec 32

/-- A byte offset `off[13:0]` of the host address space (spec/20_memory.md R50, R51). -/
abbrev Offset := BitVec 14

/-- `ceil_div(a, b)` of spec/00_scope.md R8. -/
def ceilDiv (a b : Nat) : Nat := (a + b - 1) / b

end Sys2Proof
end

