-- ==== Sys2Proof/Config.lean ====
section
/-! DEFINITION. What is fixed for this hardware (spec/00_scope.md R4), and the free values of spec/93_implementation_defined.md. -/

namespace Sys2Proof

/-- `W`, the group width in bits (spec/00_scope.md R4). -/
abbrev Config.width : Nat := 11

/-- `WORDLIST_SIZE`: an entry below it is a word index (spec/00_scope.md R4, spec/42_mnemonic.md R146). -/
abbrev Config.wordlistSize : Nat := 2048

/-- `ENT_ALIGN`, the granule of an entropy length in bytes (spec/00_scope.md R4). -/
abbrev Config.entAlign : Nat := 4

/-- `ENT_MAX`, the largest entropy length in bytes (spec/00_scope.md R4). -/
abbrev Config.entMax : Nat := 1024

/-- `EXT_MAX`, the size of the DATA RAM in bytes (spec/00_scope.md R4). -/
abbrev Config.extMax : Nat := 1056

/-- `WORD_MAX`, the number of entries of the WORD RAM (spec/00_scope.md R4). -/
abbrev Config.wordMax : Nat := 768

/-- `HASH_LEN`, the digest length in bytes (spec/00_scope.md R4). -/
abbrev Config.hashLen : Nat := 32

/-- The constant the ID register reads as (spec/10_state.md R23). -/
abbrev Config.idValue : Word := 0x42503131#32

/-- FREE VALUE (spec/93_implementation_defined.md U6, spec/70_reset_and_hazards.md R220; log entry 1): what the RAM byte
at a host offset (second argument) holds after the reset whose number is the first argument, until it is written. -/
opaque Config.ramDraw : Nat → Nat → Byte

/-- FREE VALUE (spec/93_implementation_defined.md U8, spec/20_memory.md R59; log entry 2): the word that a read gated by
BUSY returns, drawn afresh for every read by the argument, a count of the reads made. -/
opaque Config.busyRead : Nat → Word

end Sys2Proof
end

