-- ==== Sys2Proof/Syntax.lean ====
section
/-! DEFINITION. The commands of the block, the targets of its address map, and what its host does to it. -/

namespace Sys2Proof

/-- The seven commands (spec/30_encoding.md R81, one constructor per row of spec/opcode_table.json). No command has an
immediate or a register number; PACK's `z` flag is the one operand carried in the word (R83). -/
inductive Instr where
  | nop
  | append
  | verify
  | unpack
  | pack (z : Bool)
  | encode
  | validate
  deriving DecidableEq, Repr

/-- Why a command word is illegal (spec/30_encoding.md R82, R87). The hardware reports ILLEGAL_COMMAND for all three. -/
inductive IllegalWord where
  /-- `rsv = v[31:9]` is not 0. -/
  | reservedBits
  /-- `op = v[7:0]` is above 0x06. -/
  | operationCode
  /-- `z = v[8]` is 1 and `op` is not PACK's. -/
  | zeroFillFlag
  deriving DecidableEq, Repr

/-- What a mapped, aligned offset reaches (spec/20_memory.md R55, spec/10_state.md R22). -/
inductive Target where
  | id
  | ctrl
  | status
  | cmd
  | entLen
  | extLen
  | wcount
  | wfull
  | result
  /-- The word of the DATA window that holds `DATA[4j]` to `DATA[4j+3]` (R56). -/
  | dataWindow (j : Nat)
  /-- The word of the WORD window that holds `WORD[2j]` and `WORD[2j+1]` (R57). -/
  | wordWindow (j : Nat)
  deriving DecidableEq, Repr

/-- The response of one bus transaction (spec/00_scope.md R12, spec/20_memory.md R53 to R59). -/
inductive Resp where
  | okay
  | error
  deriving DecidableEq, Repr

/-- What a bus transaction gives back to the host (spec/20_memory.md R52). -/
inductive Reply where
  | read (data : Word) (resp : Resp)
  | write (resp : Resp)
  deriving DecidableEq, Repr

/-- One move of the host. -/
inductive HostOp where
  /-- `MemRead(off, 4)` (spec/00_scope.md R12). -/
  | read (off : Offset)
  /-- `MemWrite(off, 4, v)` (spec/00_scope.md R12). -/
  | write (off : Offset) (v : Word)
  /-- One turn of the loop of WAIT: it reads STATUS, and the host goes on only when the value read has BUSY clear
  (spec/30_encoding.md R90). -/
  | poll
  /-- The host waits for the interrupt instead, without a transaction (spec/43_control.md R175; log entry 13). -/
  | awaitIrq
  deriving DecidableEq, Repr

/-- The statements of a host script (spec/30_encoding.md R89) and its pseudo-statements (R90). -/
inductive HostStmt where
  | wr (off : Offset) (v : Word)
  | rd (off : Offset)
  /-- `RD off == v`: the program asserts that the read returns `v`. -/
  | rdEq (off : Offset) (v : Word)
  | cmd (i : Instr)
  | wait
  | clrst
  | loadd (i : Nat) (bytes : List Byte)
  | loadw (i : Nat) (entries : List Entry)
  deriving DecidableEq, Repr

/-- Who moves in a step: one of the two agents of spec/00_scope.md R3, or the reset input (spec/70_reset_and_hazards.md R220). -/
inductive Turn where
  | host
  | engine
  | reset
  deriving DecidableEq, Repr

end Sys2Proof
end

