-- ==== Sys2Proof/WellFormed.lean ====
section
/-! DEFINITION. Which terms of the syntax the spec allows. A command has no operand that could be out of range
(spec/30_encoding.md R83); the host-script statements LOADD and LOADW have (spec/30_encoding.md R90). -/

namespace Sys2Proof

/-- Every command of the type is legal: its one operand is a single bit (spec/30_encoding.md R83). -/
def Instr.wf : Instr → Bool
  | .nop => true
  | .append => true
  | .verify => true
  | .unpack => true
  | .pack _ => true
  | .encode => true
  | .validate => true

/-- LOADD's first index is a multiple of 4 and LOADW's is even (spec/30_encoding.md R90), and every offset they expand
to is a 14-bit offset (spec/20_memory.md R51). -/
def HostStmt.wf : HostStmt → Bool
  | .wr _ _ => true
  | .rd _ => true
  | .rdEq _ _ => true
  | .cmd i => i.wf
  | .wait => true
  | .clrst => true
  | .loadd i bytes => decide (i % 4 = 0) && decide (0x1000 + i + bytes.length ≤ 0x4000)
  | .loadw i entries => decide (i % 2 = 0) && decide (0x2000 + 2 * i + 2 * entries.length ≤ 0x4000)

end Sys2Proof
end

