-- ==== Sys2Proof/Decode.lean ====
section
/-! DEFINITION. The decoder of command words and the encoder (spec/30_encoding.md R80 to R82, R87, R88). -/

namespace Sys2Proof

/-- `op = v[7:0]` (spec/30_encoding.md R80). -/
def opField (v : Word) : BitVec 8 := v.extractLsb' 0 8

/-- `z = v[8]` (spec/30_encoding.md R80). -/
def zField (v : Word) : Bool := v.getLsbD 8

/-- `rsv = v[31:9]` (spec/30_encoding.md R80). -/
def rsvField (v : Word) : BitVec 23 := v.extractLsb' 9 23

/-- The commands without a `z` form: a set flag makes the word illegal (spec/30_encoding.md R82). -/
def plainCommand (z : Bool) (i : Instr) : Except IllegalWord Instr :=
  if z then .error .zeroFillFlag else .ok i

/-- Operation codes (spec/30_encoding.md R81). -/
def decodeOp (op : BitVec 8) (z : Bool) : Except IllegalWord Instr :=
  match op.toNat with
  | 0x00 => plainCommand z .nop
  | 0x01 => plainCommand z .append
  | 0x02 => plainCommand z .verify
  | 0x03 => plainCommand z .unpack
  | 0x04 => .ok (.pack z)
  | 0x05 => plainCommand z .encode
  | 0x06 => plainCommand z .validate
  | _ => .error .operationCode

/-- Decoding, total on the 2^32 command words (spec/30_encoding.md R82). -/
def decode (v : Word) : Except IllegalWord Instr :=
  if rsvField v = 0#23 then decodeOp (opField v) (zField v) else .error .reservedBits

/-- The operation code of a command (spec/30_encoding.md R81). -/
def opcodeOf : Instr → BitVec 8
  | .nop => 0x00#8
  | .append => 0x01#8
  | .verify => 0x02#8
  | .unpack => 0x03#8
  | .pack _ => 0x04#8
  | .encode => 0x05#8
  | .validate => 0x06#8

/-- The `z` flag of a command (spec/30_encoding.md R80, R81). -/
def zFlagOf : Instr → Bool
  | .nop => false
  | .append => false
  | .verify => false
  | .unpack => false
  | .pack z => z
  | .encode => false
  | .validate => false

/-- The legal command word of a command: `rsv`, `z`, `op` from the top (spec/30_encoding.md R80, R81). -/
def encode (i : Instr) : Word := 0#23 ++ BitVec.ofBool (zFlagOf i) ++ opcodeOf i

/-- The command that the decoder reads from the `nbits` low bits of `w`, the bits above them 0: a command is one 32-bit
word, written to CMD as a whole, and has no byte order (spec/20_memory.md R60, spec/30_encoding.md R88). -/
def decodeTableWord (nbits w : Nat) : Option Instr :=
  match decode (BitVec.ofNat 32 (w % 2 ^ nbits)) with
  | .ok i => some i
  | .error _ => none

end Sys2Proof
end

