-- ==== Sys2Proof/Machine/State.lean ====
section
/-! DEFINITION. The state of the block (spec/10_state.md), of its bus and of the agents that move it, as plain data,
and the state right after reset (spec/10_state.md R38). -/

namespace Sys2Proof.Machine

/-- The codes STATUS.ERRCODE can hold (spec/60_exceptions.md R190); codes 5 to 15 are never produced
(log entry 14). -/
inductive ErrCode where
  | noError
  | invalidEntropyLength
  | encodingOverflow
  | lengthRange
  | illegalCommand
  deriving DecidableEq, Repr

/-- The codes RESULT.VREASON can hold (spec/30_encoding.md R86); code 7 is never produced (log entry 14). -/
inductive VReason where
  | ok
  | empty
  | count
  | capacity
  | absent
  | overflow
  | checksum
  deriving DecidableEq, Repr

/-- CTRL (spec/10_state.md R24); its reserved bits hold nothing. -/
structure Ctrl where
  irqEn : Bool
  emptyValid : Bool
  deriving DecidableEq, Repr

/-- STATUS (spec/10_state.md R25); its reserved bits hold nothing. -/
structure Status where
  busy : Bool
  done : Bool
  err : Bool
  ovr : Bool
  errcode : ErrCode
  deriving DecidableEq, Repr

/-- RESULT (spec/10_state.md R31): VALID, MATCH and VREASON; its reserved bits hold nothing. -/
structure Result where
  valid : Bool
  matched : Bool
  vreason : VReason
  deriving DecidableEq, Repr

/-- Both RAMs (spec/10_state.md R32, R33), each byte under its offset in the host address space (spec/20_memory.md R55 to
R57): `cells` lists the bytes written since the last reset, in rising order of their offsets; a byte not listed holds
the draw of the reset numbered `epoch` (spec/70_reset_and_hazards.md R220; log entries 1, 11). -/
structure Memory where
  cells : List Host.Cell
  epoch : Nat
  deriving DecidableEq, Repr

/-- The MODEL's own fields, none of them the block's: what the host still has to do, who moves next, what the bus gave
back for each transaction (the latest first), and how many reads there were (log entries 3, 4, 5, 2). -/
structure Env where
  script : List HostOp
  turns : List Turn
  replies : List Reply
  reads : Nat
  deriving DecidableEq, Repr

/-- Everything spec/10_state.md gives the block, and the model's own `env`. The ID register is the constant
`Config.idValue` (R23), CMD has no storage (R26) and `irq` is an output (R36): none of the three is a field. -/
structure State where
  ctrl : Ctrl
  status : Status
  entLen : BitVec 11
  extLen : BitVec 11
  wcount : BitVec 10
  wfull : BitVec 10
  result : Result
  mem : Memory
  lcmd : Word
  lev : Bool
  env : Env
  deriving DecidableEq, Repr

/-- Why the machine stops with a fault: never. The block has no trap and no stuck state (spec/60_exceptions.md R198), an
erroneous command completes (R192), and an erroneous bus access answers ERROR (spec/20_memory.md R53, R54). -/
inductive Fault where
  deriving DecidableEq, Repr

/-- Why the model has no meaning for an instruction. -/
inductive Refusal where
  /-- Raised by an arm of `exec` whose instruction has no meaning yet; no arm is. SAFE: the model stops. -/
  | notModelled (mnemonic : String)
  deriving DecidableEq, Repr

/-- The reset values of spec/10_state.md R38. LCMD and LEV, which the spec leaves unspecified, are 0 (log entry 6), and
nothing is placed in the model's own fields (log entries 3, 4, 5, 2). -/
def State.reset : State where
  ctrl := { irqEn := false, emptyValid := false }
  status := { busy := false, done := false, err := false, ovr := false, errcode := .noError }
  entLen := 0#11
  extLen := 0#11
  wcount := 0#10
  wfull := 0#10
  result := { valid := false, matched := false, vreason := .ok }
  mem := { cells := [], epoch := 0 }
  lcmd := 0#32
  lev := false
  env := { script := [], turns := [], replies := [], reads := 0 }

end Sys2Proof.Machine
end

