-- ==== Sys2Proof/Machine/Ops.lean ====
section
/-! DEFINITION. The named operations over the RAMs, the completion of a command with and without an error, and reset. -/

namespace Sys2Proof.Machine

/-! ## Bytes under their offsets -/

/-- The value listed for an offset, if one is. -/
def lookupCell (a : Nat) : List Host.Cell → Option Byte
  | [] => none
  | (k, v) :: rest => if k = a then some v else lookupCell a rest

/-- The list with the value of one offset set, its order kept. -/
def insertCell (a : Nat) (v : Byte) : List Host.Cell → List Host.Cell
  | [] => [(a, v)]
  | (k, w) :: rest =>
    if a < k then (a, v) :: (k, w) :: rest
    else if a = k then (a, v) :: rest
    else (k, w) :: insertCell a v rest

/-- The byte a RAM holds at an offset that nothing has written since the last reset: a draw (spec/10_state.md R38,
spec/70_reset_and_hazards.md R220; log entry 1). -/
def Memory.unlisted (m : Memory) (a : Nat) : Byte := Config.ramDraw m.epoch a

/-- The byte at an offset. -/
def Memory.read (m : Memory) (a : Nat) : Byte := (lookupCell a m.cells).getD (m.unlisted a)

/-- One byte stored. -/
def Memory.write (m : Memory) (a : Nat) (v : Byte) : Memory := { m with cells := insertCell a v m.cells }

/-- The offset of `DATA[0]` in the host address space (spec/20_memory.md R55). -/
def dataBase : Nat := 0x1000

/-- The offset of `WORD[0]` in the host address space (spec/20_memory.md R55). -/
def wordBase : Nat := 0x2000

/-- The offsets that hold a RAM byte (spec/20_memory.md R55). -/
def ramOffset (a : Nat) : Bool :=
  (decide (0x1000 ≤ a) && decide (a < 0x1420)) || (decide (0x2000 ≤ a) && decide (a < 0x2600))

/-- The offsets of a list of cells rise strictly. -/
def risingCells : List Host.Cell → Bool
  | [] => true
  | [_] => true
  | (a, _) :: (b, w) :: rest => decide (a < b) && risingCells ((b, w) :: rest)

/-- The canonical form: offsets strictly rising, each one that of a RAM byte (log entry 1). -/
def Memory.wf (m : Memory) : Bool := risingCells m.cells && m.cells.all fun c => ramOffset c.1

/-! ## The two RAMs -/

/-- `DATA[i]` (spec/10_state.md R32). -/
def Memory.data (m : Memory) (i : Nat) : Byte := m.read (dataBase + i)

/-- `DATA[i] <- v`. -/
def Memory.setData (m : Memory) (i : Nat) (v : Byte) : Memory := m.write (dataBase + i) v

/-- `WORD[i]` (spec/10_state.md R33): its low byte stands at the lower offset, as the WORD window shows it
(spec/20_memory.md R57; log entry 11). -/
def Memory.word (m : Memory) (i : Nat) : Entry := m.read (wordBase + 2 * i + 1) ++ m.read (wordBase + 2 * i)

/-- `WORD[i] <- e`. -/
def Memory.setWord (m : Memory) (i : Nat) (e : Entry) : Memory :=
  (m.write (wordBase + 2 * i) (e.extractLsb' 0 8)).write (wordBase + 2 * i + 1) (e.extractLsb' 8 8)

/-- The byte string `DATA[0..n)` (spec/00_scope.md R11). -/
def Memory.dataBytes (m : Memory) (n : Nat) : List Byte := (List.range n).map m.data

/-- The entries `WORD[0..n)`. -/
def Memory.wordEntries (m : Memory) (n : Nat) : List Entry := (List.range n).map m.word

/-- `DATA[i + j] <- bs[j]` for every `j`, in rising order. -/
def Memory.writeData (m : Memory) (i : Nat) : List Byte → Memory
  | [] => m
  | b :: bs => (m.setData i b).writeData (i + 1) bs

/-- `WORD[i + j] <- es[j]` for every `j`, in rising order. -/
def Memory.writeWords (m : Memory) (i : Nat) : List Entry → Memory
  | [] => m
  | e :: es => (m.setWord i e).writeWords (i + 1) es

/-- `DATA[a] <- 0x00` for every `a < n`. -/
def Memory.zeroData (m : Memory) (n : Nat) : Memory := m.writeData 0 (List.replicate n 0x00#8)

/-- The 32-bit word at an offset of a RAM window, the lowest offset in the least significant lane (spec/20_memory.md
R56 and R57: four DATA bytes, or two entries with the even one low). -/
def Memory.readLanes (m : Memory) (a : Nat) : Word :=
  m.read (a + 3) ++ m.read (a + 2) ++ m.read (a + 1) ++ m.read a

/-- A 32-bit word stored at an offset of a RAM window (spec/20_memory.md R56, R57). -/
def Memory.writeLanes (m : Memory) (a : Nat) (v : Word) : Memory :=
  (((m.write a (v.extractLsb' 0 8)).write (a + 1) (v.extractLsb' 8 8)).write (a + 2) (v.extractLsb' 16 8)).write
    (a + 3) (v.extractLsb' 24 8)

/-! ## How a command ends -/

/-- The STATUS of a completion without error: ERR and OVR keep their values (spec/60_exceptions.md R193). -/
def Status.completed (st : Status) : Status := { st with busy := false, done := true, errcode := .noError }

/-- The STATUS of an error completion: OVR keeps its value (spec/60_exceptions.md R192). -/
def Status.failed (st : Status) (code : ErrCode) : Status :=
  { st with busy := false, done := true, err := true, errcode := code }

/-- `raise Error(code)` (spec/00_scope.md R13, spec/60_exceptions.md R192): the ONE way the block takes an error. It
changes STATUS alone: there is no program counter, mode or vector to save or change (R198). There is no return from
it either: the host clears DONE and ERR by writing STATUS (R199), which is `writeStatus` of Machine/Flags.lean. -/
def raiseError (code : ErrCode) (s : State) : State := { s with status := s.status.failed code }

/-- The completion of a command (spec/43_control.md R172): its rule answers either the state its writes leave, or the
error it raises, and then none of its writes is made (spec/00_scope.md R13). -/
def complete (s : State) : Except ErrCode State → Host.Outcome State Fault Refusal
  | .ok t => .next { t with status := t.status.completed }
  | .error code => .next (raiseError code s)

/-! ## Reset -/

/-- The RAMs after a reset: every byte a draw of its own, by a new number (spec/70_reset_and_hazards.md R220). -/
def Memory.afterReset (m : Memory) : Memory := { cells := [], epoch := m.epoch + 1 }

/-- The reset input (spec/70_reset_and_hazards.md R220): every register takes its reset value, a command in flight is
abandoned, the RAMs are drawn anew. The host and what it has still to do are outside the block (log entry 10). -/
def blockReset (s : State) : State := { State.reset with mem := s.mem.afterReset, env := s.env }

end Sys2Proof.Machine
end

