-- ==== Sys2Proof/Machine/Operands.lean ====
section
/-! DEFINITION. The operand forms of the commands (spec/30_encoding.md R83): fixed registers, read at completion. -/

namespace Sys2Proof.Machine

/-- `L = ENT_LEN[10:0]` (spec/10_state.md R27). -/
abbrev State.opL (s : State) : Nat := s.entLen.toNat

/-- `N = EXT_LEN[10:0]` (spec/10_state.md R28). -/
abbrev State.opN (s : State) : Nat := s.extLen.toNat

/-- `n = WCOUNT[9:0]` (spec/10_state.md R29). -/
abbrev State.opCount (s : State) : Nat := s.wcount.toNat

/-- `EXT_LEN <- N`; every rule that does so has `N <= 1056`. -/
def extLenOf (n : Nat) : BitVec 11 := BitVec.ofNat 11 n

/-- `ENT_LEN <- L`; every rule that does so has `L <= 1024`. -/
def entLenOf (n : Nat) : BitVec 11 := BitVec.ofNat 11 n

/-- `WCOUNT <- n` and `WFULL <- n`; every rule that does so has `n <= 768`. -/
def countOf (n : Nat) : BitVec 10 := BitVec.ofNat 10 n

/-- The entropy length check, the multiple of 4 first (spec/41_checksum.md R123): the error it raises, or none. -/
def entLenError (l : Nat) : Option ErrCode :=
  if l % Config.entAlign ≠ 0 then some .invalidEntropyLength
  else if l > Config.entMax then some .lengthRange
  else none

/-- An entry that names no word of the wordlist (spec/42_mnemonic.md R146, spec/30_encoding.md R84). -/
def absentEntry (e : Entry) : Bool := decide (Config.wordlistSize ≤ e.toNat)

end Sys2Proof.Machine
end

