-- ==== Sys2Proof/Machine/Flags.lean ====
section
/-! DEFINITION. The registers as 32-bit words, the flags in them, the host's writes to them, and the interrupt output. -/

namespace Sys2Proof.Machine

/-- The 4-bit value of STATUS.ERRCODE (spec/60_exceptions.md R190, spec/30_encoding.md R85). -/
def ErrCode.code : ErrCode → BitVec 4
  | .noError => 0#4
  | .invalidEntropyLength => 1#4
  | .encodingOverflow => 2#4
  | .lengthRange => 3#4
  | .illegalCommand => 4#4

/-- The 3-bit value of RESULT.VREASON (spec/30_encoding.md R86). -/
def VReason.code : VReason → BitVec 3
  | .ok => 0#3
  | .empty => 1#3
  | .count => 2#3
  | .capacity => 3#3
  | .absent => 4#3
  | .overflow => 5#3
  | .checksum => 6#3

/-- CTRL as the host reads it (spec/10_state.md R24). -/
def Ctrl.toWord (c : Ctrl) : Word := 0#30 ++ BitVec.ofBool c.emptyValid ++ BitVec.ofBool c.irqEn

/-- STATUS as the host reads it (spec/10_state.md R25). -/
def Status.toWord (st : Status) : Word :=
  0#20 ++ st.errcode.code ++ 0#4 ++ BitVec.ofBool st.ovr ++ BitVec.ofBool st.err ++ BitVec.ofBool st.done ++
    BitVec.ofBool st.busy

/-- RESULT as the host reads it (spec/10_state.md R31). -/
def Result.toWord (r : Result) : Word :=
  0#25 ++ r.vreason.code ++ 0#2 ++ BitVec.ofBool r.matched ++ BitVec.ofBool r.valid

/-- A host write to CTRL (spec/10_state.md R24): the reserved bits are ignored. -/
def writeCtrl (v : Word) : Ctrl := { irqEn := v.getLsbD 0, emptyValid := v.getLsbD 1 }

/-- A host write to STATUS (spec/10_state.md R25): DONE, ERR and OVR are write-one-to-clear, nothing else is writable.
With it the host returns from an error (spec/60_exceptions.md R199). -/
def writeStatus (st : Status) (v : Word) : Status :=
  { st with
    done := st.done && !v.getLsbD 1
    err := st.err && !v.getLsbD 2
    ovr := st.ovr && !v.getLsbD 3 }

/-- `v[10:0]`, what ENT_LEN and EXT_LEN store (spec/10_state.md R27, R28). -/
def lengthField (v : Word) : BitVec 11 := v.setWidth 11

/-- `v[9:0]`, what WCOUNT stores (spec/10_state.md R29). -/
def countField (v : Word) : BitVec 10 := v.setWidth 10

/-- The interrupt output `irq = CTRL.IRQ_EN & STATUS.DONE` (spec/10_state.md R36, spec/60_exceptions.md R195). -/
def State.irq (s : State) : Bool := s.ctrl.irqEn && s.status.done

end Sys2Proof.Machine
end

