-- ==== Sys2Proof/Machine/Stream.lean ====
section
/-! DEFINITION. The stream primitives of the BitPacker (spec/40_bitpacker.md R100 to R104). -/

namespace Sys2Proof.Machine

/-- Stream bit `p` of the DATA RAM: bit `7 - (p mod 8)` of byte `DATA[p div 8]` (spec/40_bitpacker.md R100). -/
def dbit (m : Memory) (p : Nat) : Bool := (m.data (p / 8)).getLsbD (7 - p % 8)

/-- `sbit(N, p)` (spec/40_bitpacker.md R100): stream bit `p` of `DATA[0..N)`, zero past its end. -/
def sbit (m : Memory) (n p : Nat) : Bool := if p < 8 * n then dbit m p else false

/-- The value of `k` consecutive bits of a stream from position `pos`, the first of them the most significant: the
cursor reading of spec/40_bitpacker.md R101. -/
def takeBits (f : Nat → Bool) (pos : Nat) : Nat → Nat
  | 0 => 0
  | k + 1 => 2 * takeBits f pos k + (f (pos + k)).toNat

/-- `zext_16(rgroup(N, i))` (spec/40_bitpacker.md R101). -/
def rgroup (m : Memory) (n i : Nat) : Entry :=
  BitVec.ofNat 16 (takeBits (sbit m n) (Config.width * i) Config.width)

/-- `G(N)`, all the groups of a read of `N` bytes (spec/40_bitpacker.md R102). -/
def groupCount (n : Nat) : Nat := ceilDiv (8 * n) Config.width

/-- `F(N)`, the complete groups of a read of `N` bytes (spec/40_bitpacker.md R102). -/
def fullCount (n : Nat) : Nat := 8 * n / Config.width

/-- Groups 0 to `cnt - 1` of `DATA[0..N)`. -/
def readGroups (m : Memory) (n cnt : Nat) : List Entry := (List.range cnt).map (rgroup m n)

/-- A write of `cnt` values into `n` bytes fits (spec/40_bitpacker.md R103). -/
def fits (cnt n : Nat) : Bool := decide (Config.width * cnt ≤ 8 * n)

/-- Stream bit `p` set, every other bit left (the OR of spec/40_bitpacker.md R104). -/
def orBit (m : Memory) (p : Nat) : Memory :=
  m.setData (p / 8) (m.data (p / 8) ||| (1#8 <<< (7 - p % 8)))

/-- The first `k` bits of a value of 11 bits, the most significant first, ORed into the stream from position `pos`. -/
def putBits (m : Memory) (pos : Nat) (v : Entry) : Nat → Memory
  | 0 => m
  | k + 1 =>
    if v.getLsbD (10 - k) then orBit (putBits m pos v k) (pos + k) else putBits m pos v k

/-- `wgroup(i, e)` (spec/40_bitpacker.md R104): the entry masked to 11 bits, then ORed in. -/
def wgroup (m : Memory) (i : Nat) (e : Entry) : Memory :=
  putBits m (Config.width * i) (e &&& 0x7FF#16) Config.width

/-- `wgroup(i + j, es[j])` for every `j`, in rising order. -/
def writeGroups (m : Memory) (i : Nat) : List Entry → Memory
  | [] => m
  | e :: es => writeGroups (wgroup m i e) (i + 1) es

end Sys2Proof.Machine
end

