-- ==== Sys2Proof/Machine/Sha256.lean ====
section
/-! DEFINITION. The function `SHA256` of spec/00_scope.md R5, taken as R5 says to be the SHA-256 of FIPS 180-4, whose text is
not in spec/ (log entry 7). Everything else of the model uses only `sha256` and `digestByte`. -/

namespace Sys2Proof.Machine

/-- A digest of 32 bytes, its byte 0 the most significant (spec/00_scope.md R5). -/
abbrev Digest := BitVec 256

/-- Byte `j` of a digest, byte 0 the first of the conventional hexadecimal rendering (spec/00_scope.md R5). -/
def digestByte (h : Digest) (j : Nat) : Byte := h.extractLsb' (8 * (31 - j)) 8

/-- The eight working variables. -/
structure HashVars where
  a : Word
  b : Word
  c : Word
  d : Word
  e : Word
  f : Word
  g : Word
  h : Word
  deriving DecidableEq, Repr

/-- The initial hash value. -/
def shaInit : HashVars where
  a := 0x6a09e667#32
  b := 0xbb67ae85#32
  c := 0x3c6ef372#32
  d := 0xa54ff53a#32
  e := 0x510e527f#32
  f := 0x9b05688c#32
  g := 0x1f83d9ab#32
  h := 0x5be0cd19#32

/-- The round constants. -/
def shaConstants : List Word :=
  [0x428a2f98#32, 0x71374491#32, 0xb5c0fbcf#32, 0xe9b5dba5#32, 0x3956c25b#32, 0x59f111f1#32, 0x923f82a4#32, 0xab1c5ed5#32] ++
  [0xd807aa98#32, 0x12835b01#32, 0x243185be#32, 0x550c7dc3#32, 0x72be5d74#32, 0x80deb1fe#32, 0x9bdc06a7#32, 0xc19bf174#32] ++
  [0xe49b69c1#32, 0xefbe4786#32, 0x0fc19dc6#32, 0x240ca1cc#32, 0x2de92c6f#32, 0x4a7484aa#32, 0x5cb0a9dc#32, 0x76f988da#32] ++
  [0x983e5152#32, 0xa831c66d#32, 0xb00327c8#32, 0xbf597fc7#32, 0xc6e00bf3#32, 0xd5a79147#32, 0x06ca6351#32, 0x14292967#32] ++
  [0x27b70a85#32, 0x2e1b2138#32, 0x4d2c6dfc#32, 0x53380d13#32, 0x650a7354#32, 0x766a0abb#32, 0x81c2c92e#32, 0x92722c85#32] ++
  [0xa2bfe8a1#32, 0xa81a664b#32, 0xc24b8b70#32, 0xc76c51a3#32, 0xd192e819#32, 0xd6990624#32, 0xf40e3585#32, 0x106aa070#32] ++
  [0x19a4c116#32, 0x1e376c08#32, 0x2748774c#32, 0x34b0bcb5#32, 0x391c0cb3#32, 0x4ed8aa4a#32, 0x5b9cca4f#32, 0x682e6ff3#32] ++
  [0x748f82ee#32, 0x78a5636f#32, 0x84c87814#32, 0x8cc70208#32, 0x90befffa#32, 0xa4506ceb#32, 0xbef9a3f7#32, 0xc67178f2#32]

/-- `Ch(x, y, z)`. -/
def shaCh (x y z : Word) : Word := (x &&& y) ^^^ (~~~x &&& z)

/-- `Maj(x, y, z)`. -/
def shaMaj (x y z : Word) : Word := (x &&& y) ^^^ (x &&& z) ^^^ (y &&& z)

/-- The two sums of the compression. -/
def shaSum0 (x : Word) : Word := x.rotateRight 2 ^^^ x.rotateRight 13 ^^^ x.rotateRight 22

/-- See `shaSum0`. -/
def shaSum1 (x : Word) : Word := x.rotateRight 6 ^^^ x.rotateRight 11 ^^^ x.rotateRight 25

/-- The two mixers of the message schedule. -/
def shaMix0 (x : Word) : Word := x.rotateRight 7 ^^^ x.rotateRight 18 ^^^ x >>> 3

/-- See `shaMix0`. -/
def shaMix1 (x : Word) : Word := x.rotateRight 17 ^^^ x.rotateRight 19 ^^^ x >>> 10

/-- One round with its constant and its schedule word. -/
def shaRound (s : HashVars) (k w : Word) : HashVars :=
  let t1 := s.h + shaSum1 s.e + shaCh s.e s.f s.g + k + w
  let t2 := shaSum0 s.a + shaMaj s.a s.b s.c
  { a := t1 + t2, b := s.a, c := s.b, d := s.c, e := s.d + t1, f := s.e, g := s.f, h := s.g }

/-- The rounds of one block, over the next 16 words of the message schedule. -/
def shaRounds : List Word → HashVars → List Word → HashVars
  | [], s, _ => s
  | k :: ks, s, w =>
    let w0 := w.getD 0 0#32
    let w16 := shaMix1 (w.getD 14 0#32) + w.getD 9 0#32 + shaMix0 (w.getD 1 0#32) + w0
    shaRounds ks (shaRound s k w0) (w.tail ++ [w16])

/-- The hash value after a block. -/
def shaAdd (x y : HashVars) : HashVars :=
  { a := x.a + y.a, b := x.b + y.b, c := x.c + y.c, d := x.d + y.d,
    e := x.e + y.e, f := x.f + y.f, g := x.g + y.g, h := x.h + y.h }

/-- The first `n` big-endian words of a byte string. -/
def shaWords : Nat → List Byte → List Word
  | 0, _ => []
  | n + 1, bs => (bs.getD 0 0#8 ++ bs.getD 1 0#8 ++ bs.getD 2 0#8 ++ bs.getD 3 0#8) :: shaWords n (bs.drop 4)

/-- `n` blocks of 64 bytes, one after the other. -/
def shaBlocks : Nat → HashVars → List Byte → HashVars
  | 0, s, _ => s
  | n + 1, s, bs => shaBlocks n (shaAdd s (shaRounds shaConstants s (shaWords 16 bs))) (bs.drop 64)

/-- The padded message: a one bit, zero bits up to 8 bytes before a multiple of 64, then the length in bits. -/
def shaPad (bs : List Byte) : List Byte :=
  bs ++ [0x80#8] ++ List.replicate ((119 - bs.length % 64) % 64) 0x00#8 ++
    (List.range 8).map fun i => BitVec.ofNat 8 ((8 * bs.length) >>> (8 * (7 - i)))

/-- `SHA256(b)` (spec/00_scope.md R5; log entry 7). -/
@[irreducible] def sha256 (bs : List Byte) : Digest :=
  let p := shaPad bs
  let s := shaBlocks (p.length / 64) shaInit p
  s.a ++ s.b ++ s.c ++ s.d ++ s.e ++ s.f ++ s.g ++ s.h

end Sys2Proof.Machine
end

