-- ==== Sys2Proof/Machine/Checksum.lean ====
section
/-! DEFINITION. The checksum primitives shared by four commands (spec/41_checksum.md R120 to R122). -/

namespace Sys2Proof.Machine

/-- `k`, the checksum bits of an entropy of `L` bytes (spec/41_checksum.md R120). -/
def cksumBits (l : Nat) : Nat := l / 4

/-- `C`, the checksum bytes of an entropy of `L` bytes (spec/41_checksum.md R120). -/
def cksumBytes (l : Nat) : Nat := ceilDiv (cksumBits l) 8

/-- `mask(k)`, the mask of the final checksum byte (spec/41_checksum.md R121). -/
def cksumMask (k : Nat) : Byte := if k % 8 = 0 then 0xFF#8 else 0xFF#8 <<< (8 - k % 8)

/-- Byte `j` of `cks(L)`: a digest byte, the final one masked (spec/41_checksum.md R121, R122). -/
def cksumByte (h : Digest) (l j : Nat) : Byte :=
  if j + 1 = cksumBytes l then digestByte h j &&& cksumMask (cksumBits l) else digestByte h j

/-- `cks(L)` (spec/41_checksum.md R122). -/
def cks (m : Memory) (l : Nat) : List Byte :=
  (List.range (cksumBytes l)).map (cksumByte (sha256 (m.dataBytes l)) l)

/-- `ext(L)` (spec/41_checksum.md R122). -/
def extension (m : Memory) (l : Nat) : List Byte := m.dataBytes l ++ cks m l

end Sys2Proof.Machine
end

