-- ==== Sys2Proof/Machine/Control.lean ====
section
/-! DEFINITION. The control family: NOP and illegal words (spec/43_control.md R171, R173). -/

namespace Sys2Proof.Machine

/-- NOP (spec/43_control.md R171): its completion alone. -/
def execNop (s : State) : Host.Outcome State Fault Refusal := complete s (.ok s)

/-- The completion of a command word that is not legal (spec/43_control.md R173). -/
def execIllegal (s : State) : Host.Outcome State Fault Refusal := complete s (.error .illegalCommand)

end Sys2Proof.Machine
end

