-- ==== Sys2Proof/Machine/Bus.lean ====
section
/-! DEFINITION. The host bus: the address map, reads and writes with the busy gating, and the acceptance of a command
(spec/20_memory.md R50 to R61, spec/43_control.md R170). -/

namespace Sys2Proof.Machine

/-- The nine registers, by their offset divided by 4 (spec/10_state.md R22). -/
def registerAt : Nat → Option Target
  | 0 => some .id
  | 1 => some .ctrl
  | 2 => some .status
  | 3 => some .cmd
  | 4 => some .entLen
  | 5 => some .extLen
  | 6 => some .wcount
  | 7 => some .wfull
  | 8 => some .result
  | _ => none

/-- The address map (spec/20_memory.md R55): what an offset reaches, or none where it is misaligned (R53) or unmapped
(R54). -/
def target (off : Offset) : Option Target :=
  if off.toNat % 4 ≠ 0 then none
  else if off.toNat < 0x1000 then registerAt (off.toNat / 4)
  else if off.toNat < 0x1420 then some (.dataWindow ((off.toNat - 0x1000) / 4))
  else if off.toNat < 0x2000 then none
  else if off.toNat < 0x2600 then some (.wordWindow ((off.toNat - 0x2000) / 4))
  else none

/-- What a target holds, as the host reads it while BUSY does not gate it (spec/10_state.md R23 to R31,
spec/20_memory.md R56, R57). -/
def targetValue (s : State) : Target → Word
  | .id => Config.idValue
  | .ctrl => s.ctrl.toWord
  | .status => s.status.toWord
  | .cmd => 0#32
  | .entLen => s.entLen.setWidth 32
  | .extLen => s.extLen.setWidth 32
  | .wcount => s.wcount.setWidth 32
  | .wfull => s.wfull.setWidth 32
  | .result => s.result.toWord
  | .dataWindow j => s.mem.readLanes (dataBase + 4 * j)
  | .wordWindow j => s.mem.readLanes (wordBase + 4 * j)

/-- The targets whose read returns an unspecified word while BUSY = 1 (spec/20_memory.md R59). -/
def readGated : Target → Bool
  | .id => false
  | .ctrl => false
  | .status => false
  | .cmd => false
  | .entLen => true
  | .extLen => true
  | .wcount => true
  | .wfull => true
  | .result => true
  | .dataWindow _ => true
  | .wordWindow _ => true

/-- The targets whose write is dropped while BUSY = 1 (spec/20_memory.md R58). -/
def writeGated : Target → Bool
  | .id => false
  | .ctrl => false
  | .status => false
  | .cmd => true
  | .entLen => true
  | .extLen => true
  | .wcount => true
  | .wfull => false
  | .result => false
  | .dataWindow _ => true
  | .wordWindow _ => true

/-- The data of `MemRead(off, 4)` (spec/20_memory.md R53, R54, R59; log entry 2). -/
def readData (s : State) (off : Offset) : Word :=
  match target off with
  | none => 0#32
  | some t => if s.status.busy && readGated t then Config.busyRead s.env.reads else targetValue s t

/-- The response of a transaction, read or write (spec/20_memory.md R53 to R59). -/
def busResp (off : Offset) : Resp :=
  match target off with
  | none => .error
  | some _ => .okay

/-- Command acceptance (spec/43_control.md R170): the word and EMPTY_VALID are latched, BUSY is set; no check is made. -/
def accept (s : State) (v : Word) : State :=
  { s with lcmd := v, lev := s.ctrl.emptyValid, status := { s.status with busy := true } }

/-- A write dropped because BUSY = 1 (spec/20_memory.md R58, spec/60_exceptions.md R194). -/
def dropWrite (s : State) : State := { s with status := { s.status with ovr := true } }

/-- A write that BUSY does not gate (spec/10_state.md R23 to R31, spec/20_memory.md R56, R57). -/
def writeTarget (s : State) (v : Word) : Target → State
  | .id => s
  | .ctrl => { s with ctrl := writeCtrl v }
  | .status => { s with status := writeStatus s.status v }
  | .cmd => accept s v
  | .entLen => { s with entLen := lengthField v }
  | .extLen => { s with extLen := lengthField v }
  | .wcount => { s with wcount := countField v }
  | .wfull => s
  | .result => s
  | .dataWindow j => { s with mem := s.mem.writeLanes (dataBase + 4 * j) v }
  | .wordWindow j => { s with mem := s.mem.writeLanes (wordBase + 4 * j) v }

/-- The block's state after `MemWrite(off, 4, v)` (spec/20_memory.md R53, R54, R58). -/
def busWrite (s : State) (off : Offset) (v : Word) : State :=
  match target off with
  | none => s
  | some t => if s.status.busy && writeGated t then dropWrite s else writeTarget s v t

/-- The host reads: the block keeps its state (spec/20_memory.md R61), the bus gives back the data. -/
def hostRead (s : State) (off : Offset) : State :=
  { s with env := { s.env with
      replies := .read (readData s off) (busResp off) :: s.env.replies
      reads := s.env.reads + 1 } }

/-- The host writes. -/
def hostWrite (s : State) (off : Offset) (v : Word) : State :=
  let t := busWrite s off v
  { t with env := { t.env with replies := .write (busResp off) :: t.env.replies } }

/-- The offset of a register (spec/10_state.md R22). -/
def statusOffset : Offset := 0x0008#14

/-- See `statusOffset`. -/
def cmdOffset : Offset := 0x000C#14

end Sys2Proof.Machine
end

