-- ==== Sys2Proof/Machine/Agents.lean ====
section
/-! DEFINITION. The host as an agent: its script, the notation of host scripts, and who moves next
(spec/00_scope.md R3, spec/20_memory.md R52, R63, spec/30_encoding.md R89, R90, spec/43_control.md R172). -/

namespace Sys2Proof.Machine

/-- Who moves next: the head of the schedule; where the schedule says nothing, the engine while it has a step and the
host otherwise (log entry 4). -/
def State.nextTurn (s : State) : Turn :=
  match s.env.turns with
  | t :: _ => t
  | [] => if s.status.busy then .engine else .host

/-- The schedule after that move. -/
def State.popTurn (s : State) : State := { s with env := { s.env with turns := s.env.turns.tail } }

/-- The state with another script left to run. -/
def State.withScript (s : State) (ops : List HostOp) : State := { s with env := { s.env with script := ops } }

/-- One host step (spec/20_memory.md R52): the next move of its script, or none where the script is over. A poll that
reads BUSY = 1 stays in the script (spec/30_encoding.md R90, WAIT), and so does a wait while `irq` is low
(spec/43_control.md R175). -/
def hostMove (s : State) : State :=
  match s.env.script with
  | [] => s
  | .read off :: rest => hostRead (s.withScript rest) off
  | .write off v :: rest => hostWrite (s.withScript rest) off v
  | .poll :: rest => hostRead (if s.status.busy then s else s.withScript rest) statusOffset
  | .awaitIrq :: rest => if s.irq then s.withScript rest else s

/-- The bus words of LOADD: four bytes a word, the lowest in bits 7:0, missing bytes 0 (spec/30_encoding.md R90).
The first argument bounds the number of words. -/
def loadDataOps : Nat → Nat → List Byte → List HostOp
  | 0, _, _ => []
  | _ + 1, _, [] => []
  | k + 1, a, b :: bs =>
    .write (BitVec.ofNat 14 a) (bs.getD 2 0x00#8 ++ bs.getD 1 0x00#8 ++ bs.getD 0 0x00#8 ++ b) ::
      loadDataOps k (a + 4) (bs.drop 3)

/-- The bus words of LOADW: two entries a word, the first in bits 15:0, a missing entry 0 (spec/30_encoding.md R90). -/
def loadWordOps : Nat → Nat → List Entry → List HostOp
  | 0, _, _ => []
  | _ + 1, _, [] => []
  | k + 1, a, e :: es =>
    .write (BitVec.ofNat 14 a) (es.getD 0 0x0000#16 ++ e) :: loadWordOps k (a + 4) (es.drop 1)

/-- The bus transactions of a statement (spec/30_encoding.md R89, R90). The assertion of `RD off == v` is the host
program's: the model makes the read, whose value its reply shows (log entry 8). -/
def expandStmt : HostStmt → List HostOp
  | .wr off v => [.write off v]
  | .rd off => [.read off]
  | .rdEq off _ => [.read off]
  | .cmd i => [.write cmdOffset (encode i)]
  | .wait => [.poll]
  | .clrst => [.write statusOffset 0x0000000E#32]
  | .loadd i bytes => loadDataOps bytes.length (dataBase + i) bytes
  | .loadw i entries => loadWordOps entries.length (wordBase + 2 * i) entries

/-- The moves of a host program. -/
def expandScript (p : List HostStmt) : List HostOp := p.flatMap expandStmt

/-- The assertion of a statement about the reply its read got: true for a statement that asserts nothing. -/
def assertionHolds (st : HostStmt) (r : Reply) : Bool :=
  match st with
  | .rdEq _ v => match r with
    | .read d _ => decide (d = v)
    | .write _ => false
  | .wr _ _ => true
  | .rd _ => true
  | .cmd _ => true
  | .wait => true
  | .clrst => true
  | .loadd _ _ => true
  | .loadw _ _ => true

end Sys2Proof.Machine
end

