-- ==== Sys2Proof/Machine/BitPacker.lean ====
section
/-! DEFINITION. The BitPacker family: UNPACK and PACK (spec/40_bitpacker.md R106, R107). -/

namespace Sys2Proof.Machine

/-- The rule of UNPACK (spec/40_bitpacker.md R106). -/
def unpackRule (s : State) : Except ErrCode State :=
  if s.opN > Config.extMax then .error .lengthRange
  else .ok { s with
      mem := s.mem.writeWords 0 (readGroups s.mem s.opN (groupCount s.opN))
      wcount := countOf (groupCount s.opN)
      wfull := countOf (fullCount s.opN) }

/-- UNPACK (spec/40_bitpacker.md R106). -/
def execUnpack (s : State) : Host.Outcome State Fault Refusal := complete s (unpackRule s)

/-- The rule of PACK (`z` false) and PACK.Z (`z` true), the checks in their order (spec/40_bitpacker.md R107). -/
def packRule (z : Bool) (s : State) : Except ErrCode State :=
  if s.opN > Config.extMax then .error .lengthRange
  else if s.opCount > Config.wordMax then .error .lengthRange
  else if fits s.opCount s.opN then
    .ok { s with
      mem := writeGroups (if z then s.mem.zeroData s.opN else s.mem) 0 (s.mem.wordEntries s.opCount) }
  else .error .encodingOverflow

/-- PACK (spec/40_bitpacker.md R107). -/
def execPack (z : Bool) (s : State) : Host.Outcome State Fault Refusal := complete s (packRule z s)

end Sys2Proof.Machine
end

