-- ==== Sys2Proof/Machine/ChecksumCodec.lean ====
section
/-! DEFINITION. The ChecksumCodec family: APPEND and VERIFY (spec/41_checksum.md R124, R125). -/

namespace Sys2Proof.Machine

/-- The rule of APPEND (spec/41_checksum.md R124). -/
def appendRule (s : State) : Except ErrCode State :=
  match entLenError s.opL with
  | some code => .error code
  | none => .ok { s with
      mem := s.mem.writeData s.opL (cks s.mem s.opL)
      extLen := extLenOf (s.opL + cksumBytes s.opL) }

/-- APPEND (spec/41_checksum.md R124). -/
def execAppend (s : State) : Host.Outcome State Fault Refusal := complete s (appendRule s)

/-- `T = N and for all a < N: x[a] = DATA[a]` for a recomputed extension `x` (spec/41_checksum.md R125, spec/42_mnemonic.md
R142). -/
def extensionMatches (m : Memory) (l n : Nat) : Bool :=
  decide ((extension m l).length = n) && decide (extension m l = m.dataBytes n)

/-- The rule of VERIFY (spec/41_checksum.md R125). -/
def verifyRule (s : State) : Except ErrCode State :=
  match entLenError s.opL with
  | some code => .error code
  | none =>
    if s.opN > Config.extMax then .error .lengthRange
    else .ok { s with result := { s.result with matched := extensionMatches s.mem s.opL s.opN } }

/-- VERIFY (spec/41_checksum.md R125). -/
def execVerify (s : State) : Host.Outcome State Fault Refusal := complete s (verifyRule s)

end Sys2Proof.Machine
end

