-- ==== Sys2Proof/Machine/Mnemonic.lean ====
section
/-! DEFINITION. The Mnemonic family: ENCODE and VALIDATE (spec/42_mnemonic.md R140, R142). -/

namespace Sys2Proof.Machine

/-- The writes of ENCODE for an entropy length that passed its check: the checksum first, then the complete groups of
the extended buffer (spec/42_mnemonic.md R140). -/
def encodeWrites (s : State) (l : Nat) : State :=
  let n := l + cksumBytes l
  let m := s.mem.writeData l (cks s.mem l)
  { s with
    mem := m.writeWords 0 (readGroups m n (fullCount n))
    extLen := extLenOf n
    wcount := countOf (fullCount n)
    wfull := countOf (fullCount n) }

/-- The rule of ENCODE (spec/42_mnemonic.md R140). -/
def encodeRule (s : State) : Except ErrCode State :=
  match entLenError s.opL with
  | some code => .error code
  | none => .ok (encodeWrites s s.opL)

/-- ENCODE (spec/42_mnemonic.md R140). -/
def execEncode (s : State) : Host.Outcome State Fault Refusal := complete s (encodeRule s)

/-- `answer(v, r)` (spec/42_mnemonic.md R142): a completion without error. -/
def answer (v : Bool) (r : VReason) (s : State) : Except ErrCode State :=
  .ok { s with result := { s.result with valid := v, vreason := r } }

/-- `E`, the entropy bytes of `n` words (spec/42_mnemonic.md R142). -/
def entropyBytes (n : Nat) : Nat := Config.width * n * 32 / 33 / 8

/-- `B`, the buffer bytes of `n` words (spec/42_mnemonic.md R142). -/
def bufferBytes (n : Nat) : Nat := ceilDiv (Config.width * n) 8

/-- The pack step of VALIDATE (spec/42_mnemonic.md R142): a zeroed buffer, the groups, the two lengths. -/
def validatePack (s : State) (n : Nat) : State :=
  { s with
    mem := writeGroups (s.mem.zeroData (bufferBytes n)) 0 (s.mem.wordEntries n)
    entLen := entLenOf (entropyBytes n)
    extLen := extLenOf (bufferBytes n) }

/-- The comparison of VALIDATE, over the packed buffer (spec/42_mnemonic.md R142). -/
def validateCompare (s : State) (n : Nat) : Except ErrCode State :=
  if extensionMatches s.mem (entropyBytes n) (bufferBytes n) then answer true .ok s else answer false .checksum s

/-- The rule of VALIDATE, the checks in their order (spec/42_mnemonic.md R142). -/
def validateRule (s : State) : Except ErrCode State :=
  if s.opCount = 0 ∧ s.lev = false then answer false .empty s
  else if s.opCount % 3 ≠ 0 then answer false .count s
  else if s.opCount > Config.wordMax then answer false .capacity s
  else if (s.mem.wordEntries s.opCount).any absentEntry then answer false .absent s
  else if fits s.opCount (bufferBytes s.opCount) then validateCompare (validatePack s s.opCount) s.opCount
  else answer false .overflow s

/-- VALIDATE (spec/42_mnemonic.md R142). -/
def execValidate (s : State) : Host.Outcome State Fault Refusal := complete s (validateRule s)

end Sys2Proof.Machine
end

