-- ==== Sys2Proof/Machine/Dispatch.lean ====
section
/-! DEFINITION. One arm per command (spec/30_encoding.md R81, spec/43_control.md R172). -/

namespace Sys2Proof.Machine

def exec (i : Instr) (s : State) : Host.Outcome State Fault Refusal :=
  match i with
  | .nop => Sys2Proof.Machine.execNop s
  | .append => Sys2Proof.Machine.execAppend s
  | .verify => Sys2Proof.Machine.execVerify s
  | .unpack => Sys2Proof.Machine.execUnpack s
  | .pack z => Sys2Proof.Machine.execPack z s
  | .encode => Sys2Proof.Machine.execEncode s
  | .validate => Sys2Proof.Machine.execValidate s

end Sys2Proof.Machine
end

