-- ==== Sys2Proof/Machine/Step.lean ====
section
/-! DEFINITION. The engine's step and the step of the machine (spec/43_control.md R172, spec/00_scope.md R3). -/

namespace Sys2Proof.Machine

/-- The engine's step (spec/43_control.md R172): it has one exactly when BUSY = 1; it decodes LCMD and completes the
command, or the illegal word (R173). -/
def engineMove (s : State) : Host.Outcome State Fault Refusal :=
  if s.status.busy then
    match decode s.lcmd with
    | .ok i => exec i s
    | .error _ => execIllegal s
  else .next s

/-- One step: the move of the agent whose turn it is, or a reset (log entry 4). -/
def step (s : State) : Host.Outcome State Fault Refusal :=
  match s.nextTurn with
  | .host => .next (hostMove s.popTurn)
  | .engine => engineMove s.popTurn
  | .reset => .next (blockReset s.popTurn)

/-- The state whose very next step runs the command word `w` (its bits above `nbits` 0): the word has been accepted as
a host write to CMD accepts it (spec/43_control.md R170), and the engine moves next (log entry 9). -/
def State.withFetchWord (s : State) (nbits w : Nat) : State :=
  { accept s (BitVec.ofNat 32 (w % 2 ^ nbits)) with env := { s.env with turns := .engine :: s.env.turns } }

end Sys2Proof.Machine
end

