-- ==== Sys2Proof/Safety.lean ====
section
/-! DEFINITION. The terms the claims use: the invariant of the block, what a command may read and what it produces. -/

namespace Sys2Proof.Machine

/-- What holds in every state a run reaches: the RAMs are in their canonical form, WFULL counts groups that fit the WORD
RAM (spec/40_bitpacker.md R102), VREASON is never OVERFLOW (spec/42_mnemonic.md R145), and VALID = 1 goes with the
reason OK (spec/30_encoding.md R86). -/
def State.Inv (s : State) : Prop :=
  s.mem.wf = true ∧ s.wfull.toNat ≤ 768 ∧ s.result.vreason ≠ .overflow ∧
    (s.result.valid = true → s.result.vreason = .ok)

/-- The STATUS of a completion without error, written out (spec/60_exceptions.md R193). -/
def okStatus (s : State) : Status where
  busy := false
  done := true
  err := s.status.err
  ovr := s.status.ovr
  errcode := .noError

/-- The state after an error completion, written out: four STATUS fields, and nothing else (spec/60_exceptions.md R192). -/
def errorEnd (s : State) (code : ErrCode) : State :=
  { s with status := { busy := false, done := true, err := true, ovr := s.status.ovr, errcode := code } }

/-- Byte `j` of the masked checksum of `DATA[0..L)`, written out from `k = L div 4` and `C = ceil_div(k, 8)`
(spec/41_checksum.md R120 to R122). -/
def checksumByteOf (m : Memory) (l j : Nat) : Byte :=
  if j + 1 = (l / 4 + 7) / 8 then
    digestByte (sha256 (m.dataBytes l)) j &&& (if l / 4 % 8 = 0 then 0xFF#8 else 0xFF#8 <<< (8 - l / 4 % 8))
  else digestByte (sha256 (m.dataBytes l)) j

/-- The offsets of RAM bytes that a command may write in a state (the column "RAM" of spec/10_state.md R37), with
`L = ENT_LEN`, `N = EXT_LEN` and `n = WCOUNT`. -/
def MayWrite (i : Instr) (s : State) (a : Nat) : Prop :=
  match i with
  | .nop => False
  | .append => dataBase + s.entLen.toNat ≤ a ∧ a < dataBase + s.entLen.toNat + (s.entLen.toNat / 4 + 7) / 8
  | .verify => False
  | .unpack => wordBase ≤ a ∧ a < wordBase + 2 * ((8 * s.extLen.toNat + 10) / 11)
  | .pack _ => dataBase ≤ a ∧ a < dataBase + s.extLen.toNat
  | .encode => (dataBase + s.entLen.toNat ≤ a ∧ a < dataBase + s.entLen.toNat + (s.entLen.toNat / 4 + 7) / 8) ∨
      (wordBase ≤ a ∧ a < wordBase + 2 * (3 * s.entLen.toNat / 4))
  | .validate => dataBase ≤ a ∧ a < dataBase + (11 * s.wcount.toNat + 7) / 8

/-- VALIDATE reached its pack step (spec/42_mnemonic.md R142): no earlier answer was given. -/
def ReachedPack (t : State) : Prop := t.result.vreason = .ok ∨ t.result.vreason = .checksum

/-- The two states hold the same inputs of a command (the column "reads" of spec/30_encoding.md R83). -/
def InputsAgree (i : Instr) (s₁ s₂ : State) : Prop :=
  match i with
  | .nop => True
  | .append => s₁.entLen = s₂.entLen ∧ ∀ a < s₁.entLen.toNat, s₁.mem.data a = s₂.mem.data a
  | .verify => s₁.entLen = s₂.entLen ∧ s₁.extLen = s₂.extLen ∧
      ∀ a < max s₁.entLen.toNat s₁.extLen.toNat, s₁.mem.data a = s₂.mem.data a
  | .unpack => s₁.extLen = s₂.extLen ∧ ∀ a < s₁.extLen.toNat, s₁.mem.data a = s₂.mem.data a
  | .pack z => s₁.extLen = s₂.extLen ∧ s₁.wcount = s₂.wcount ∧
      (∀ j < s₁.wcount.toNat, s₁.mem.word j = s₂.mem.word j) ∧
      (z = false → ∀ a < s₁.extLen.toNat, s₁.mem.data a = s₂.mem.data a)
  | .encode => s₁.entLen = s₂.entLen ∧ ∀ a < s₁.entLen.toNat, s₁.mem.data a = s₂.mem.data a
  | .validate => s₁.wcount = s₂.wcount ∧ s₁.lev = s₂.lev ∧
      ∀ j < s₁.wcount.toNat, s₁.mem.word j = s₂.mem.word j

/-- The two states hold the same outputs of a command (the column "writes" of spec/30_encoding.md R83). -/
def OutputsAgree (i : Instr) (t₁ t₂ : State) : Prop :=
  match i with
  | .nop => True
  | .append => t₁.extLen = t₂.extLen ∧
      ∀ a, t₁.entLen.toNat ≤ a → a < t₁.extLen.toNat → t₁.mem.data a = t₂.mem.data a
  | .verify => t₁.result.matched = t₂.result.matched
  | .unpack => t₁.wcount = t₂.wcount ∧ t₁.wfull = t₂.wfull ∧
      ∀ j < t₁.wcount.toNat, t₁.mem.word j = t₂.mem.word j
  | .pack _ => ∀ a < t₁.extLen.toNat, t₁.mem.data a = t₂.mem.data a
  | .encode => t₁.extLen = t₂.extLen ∧ t₁.wcount = t₂.wcount ∧ t₁.wfull = t₂.wfull ∧
      (∀ a, t₁.entLen.toNat ≤ a → a < t₁.extLen.toNat → t₁.mem.data a = t₂.mem.data a) ∧
      ∀ j < t₁.wcount.toNat, t₁.mem.word j = t₂.mem.word j
  | .validate => t₁.result.valid = t₂.result.valid ∧ t₁.result.vreason = t₂.result.vreason ∧
      (ReachedPack t₁ →
        t₁.entLen = t₂.entLen ∧ t₁.extLen = t₂.extLen ∧
          ∀ a < t₁.extLen.toNat, t₁.mem.data a = t₂.mem.data a)

end Sys2Proof.Machine
end

