-- ==== Sys2Proof/Certificates/Slice0/Obligations.lean ====
section
/-! DEFINITION. The statements for the provers, from the numbered rules of spec/. -/

open Sys2Proof Sys2Proof.Machine

/-! ## Decoding -/

/-- The words of spec/30_encoding.md R81, and one word for each way of being illegal (R87). -/
def Obligations.DecodesTheTableWords : Prop :=
  decode 0x00000000#32 = .ok .nop ∧ decode 0x00000001#32 = .ok .append ∧ decode 0x00000002#32 = .ok .verify ∧
  decode 0x00000003#32 = .ok .unpack ∧ decode 0x00000004#32 = .ok (.pack false) ∧
  decode 0x00000104#32 = .ok (.pack true) ∧ decode 0x00000005#32 = .ok .encode ∧
  decode 0x00000006#32 = .ok .validate ∧ decode 0x00000007#32 = .error .operationCode ∧
  decode 0x00000103#32 = .error .zeroFillFlag ∧ decode 0x00000204#32 = .error .reservedBits

/-- Decoding and encoding agree in both directions, and the legal words are those of spec/30_encoding.md R81. -/
def Obligations.DecodeAndEncodeAgree : Prop :=
  (∀ i : Instr, i.wf = true → decode (encode i) = .ok i) ∧ (∀ v i, decode v = .ok i → v = encode i) ∧
  encode .nop = 0x00000000#32 ∧ encode .append = 0x00000001#32 ∧ encode .verify = 0x00000002#32 ∧
  encode .unpack = 0x00000003#32 ∧ encode (.pack false) = 0x00000004#32 ∧ encode (.pack true) = 0x00000104#32 ∧
  encode .encode = 0x00000005#32 ∧ encode .validate = 0x00000006#32

/-- Which words are legal, both ways spec/30_encoding.md R82 says it, and what an illegal one does: it is accepted, sets
BUSY, and completes with ILLEGAL_COMMAND and no other effect. -/
def Obligations.IllegalWordsAreAcceptedAndFail : Prop :=
  ∀ v : Word,
    ((∃ i, decode v = .ok i) ↔
      v.extractLsb' 9 23 = 0#23 ∧ (v.extractLsb' 0 8).toNat ≤ 0x06 ∧
        (v.getLsbD 8 = false ∨ v.extractLsb' 0 8 = 0x04#8)) ∧
    ((∃ i, decode v = .ok i) ↔
      v ∈ [0x00000000#32, 0x00000001#32, 0x00000002#32, 0x00000003#32, 0x00000004#32, 0x00000005#32, 0x00000006#32,
        0x00000104#32]) ∧
    (∀ s : State, s.status.busy = false →
      busWrite s 0x000C#14 v =
        { s with lcmd := v, lev := s.ctrl.emptyValid, status := { s.status with busy := true } }) ∧
    (∀ s : State, s.status.busy = true → s.lcmd = v → (∀ i, decode v ≠ .ok i) →
      engineMove s = .next (errorEnd s .illegalCommand))

/-! ## Steps -/

/-- A step runs the decoded command: with BUSY = 1 and the engine to move, it is `exec` of the command in LCMD; an engine
without a command has no step; the other two turns are the host's move and the reset; and the state `withFetchWord`
places a command in runs it next (model: log entries 4 and 9). -/
def Obligations.StepRunsTheCommandInFlight : Prop :=
  (∀ (s : State) (i : Instr), s.nextTurn = .engine → s.status.busy = true → decode s.lcmd = .ok i →
    step s = exec i s.popTurn) ∧
  (∀ s : State, s.nextTurn = .engine → s.status.busy = false → step s = .next s.popTurn) ∧
  (∀ s : State, s.nextTurn = .host → step s = .next (hostMove s.popTurn)) ∧
  (∀ s : State, s.nextTurn = .reset → step s = .next (blockReset s.popTurn)) ∧
  (∀ (s : State) (i : Instr), step (s.withFetchWord 32 (encode i).toNat) = exec i (accept s (encode i)))

/-- After reset, at power-on and in a run alike, every register field the spec gives a reset value has it, and `irq` is
low (spec/10_state.md R38); the RAMs hold any values. -/
def Obligations.ResetLeavesTheResetValues : Prop :=
  (∀ s : State, s = State.reset ∨ (∃ u : State, u.nextTurn = .reset ∧ step u = .next s) →
    readData s 0x0000#14 = 0x42503131#32 ∧ s.ctrl.irqEn = false ∧ s.ctrl.emptyValid = false ∧
    s.status.busy = false ∧ s.status.done = false ∧ s.status.err = false ∧ s.status.ovr = false ∧
    s.status.errcode = .noError ∧ s.entLen = 0#11 ∧ s.extLen = 0#11 ∧ s.wcount = 0#10 ∧ s.wfull = 0#10 ∧
    s.result.valid = false ∧ s.result.matched = false ∧ s.result.vreason = .ok ∧ s.irq = false ∧
    (∀ off ∈ [0x0004#14, 0x0008#14, 0x000C#14, 0x0010#14, 0x0014#14, 0x0018#14, 0x001C#14, 0x0020#14],
      readData s off = 0#32)) ∧
  (∀ u : State, u.nextTurn = .reset → ∃ s, step u = .next s)

/-- The invariant holds after reset. Its clause on the RAMs, the canonical form of the cells, is the model's own (log
entry 1); the others are the spec's. -/
def Obligations.InvariantHoldsAtReset : Prop := State.reset.Inv

/-- Every step keeps the invariant, whoever moves, from every state that meets it: the RAMs keep their canonical form
(the model's clause, log entry 1), WFULL fits the WORD RAM, VREASON is never OVERFLOW, and VALID = 1 goes with OK. -/
def Obligations.EveryStepKeepsTheInvariant : Prop :=
  ∀ s t : State, s.Inv → step s = .next t → t.Inv

/-- A command in flight completes: with no reset in the schedule, the engine's step comes after at most as many steps as
the schedule still names (the model's form of LATENCY, log entry 4). -/
def Obligations.EveryAcceptedCommandCompletes : Prop :=
  ∀ s : State, s.status.busy = true → Turn.reset ∉ s.env.turns →
    ∃ k ≤ s.env.turns.length + 1, ∃ t : State,
      Host.Core.run Sys2Proof.core k s = .next t ∧ t.status.busy = false ∧ t.status.done = true

/-- A command's inputs cannot change between its acceptance and its completion: however many moves the host makes before
the engine's step, the command leaves what it would have left at once. That the order of the moves is a list in the
state, and so the clause on what is left of that list, is the model's (log entry 4). -/
def Obligations.HostMovesDoNotReachACommandInFlight : Prop :=
  ∀ (k : Nat) (rest : List Turn) (s : State), s.status.busy = true →
    s.env.turns = List.replicate k Turn.host ++ Turn.engine :: rest →
      ∃ t u : State, Host.Core.run Sys2Proof.core (k + 1) s = .next t ∧ engineMove s = .next u ∧
        t.mem = u.mem ∧ t.entLen = u.entLen ∧ t.extLen = u.extLen ∧ t.wcount = u.wcount ∧ t.wfull = u.wfull ∧
        t.result = u.result ∧ t.status.errcode = u.status.errcode ∧ t.status.busy = false ∧ t.env.turns = rest

/-! ## The commands -/

/-- NOP (spec/43_control.md R171): STATUS alone, `irq` where it is enabled, and what the write of CMD and the completion
of the rule's example leave, whatever moves stand between them; `NopExampleRunsUnderEverySchedule` runs the example. -/
def Obligations.NopCompletes : Prop :=
  decode 0x00000000#32 = .ok .nop ∧
  (∀ s : State, ∃ t, exec .nop s = .next t ∧ t = { s with status := okStatus s } ∧ t.irq = s.ctrl.irqEn) ∧
  (∃ t : State, engineMove (busWrite State.reset 0x000C#14 0x00000000#32) = .next t ∧
    t.status.toWord = 0x00000002#32)

/-- The example of spec/43_control.md R171 under every schedule without a reset: from reset, `WR CMD, 0` then `WAIT` comes
to an end, and STATUS is then 0x00000002. The script, the schedule and so the bound on the steps are the model's (log
entries 3 and 4). -/
def Obligations.NopExampleRunsUnderEverySchedule : Prop :=
  ∀ (turns : List Turn) (s : State), Turn.reset ∉ turns →
    s = { State.reset with env :=
      { State.reset.env with script := expandScript [.wr 0x000C#14 0x00000000#32, .wait], turns := turns } } →
      (∃ k ≤ turns.length + 3, ∃ t : State, Host.Core.run Sys2Proof.core k s = .next t ∧ t.env.script = []) ∧
      (∀ (k : Nat) (t : State), Host.Core.run Sys2Proof.core k s = .next t → t.env.script = [] →
        t.status.toWord = 0x00000002#32)

/-- APPEND (spec/41_checksum.md R124), with its frame. -/
def Obligations.AppendFollowsItsRule : Prop :=
  decode 0x00000001#32 = .ok .append ∧
  ∀ (s : State) (l c : Nat), l = s.entLen.toNat → c = (l / 4 + 7) / 8 →
    (l % 4 = 0 → l ≤ 1024 → ∃ t, exec .append s = .next t ∧
      t = { s with mem := t.mem, extLen := t.extLen, status := okStatus s } ∧
      t.extLen.toNat = l + c ∧
      (∀ j < c, t.mem.data (l + j) = checksumByteOf s.mem l j) ∧
      (∀ a, ¬(dataBase + l ≤ a ∧ a < dataBase + l + c) → t.mem.read a = s.mem.read a)) ∧
    (l % 4 ≠ 0 → exec .append s = .next (errorEnd s .invalidEntropyLength)) ∧
    (l % 4 = 0 → 1024 < l → exec .append s = .next (errorEnd s .lengthRange))

/-- VERIFY (spec/41_checksum.md R125), with its frame: MATCH and STATUS are all that changes. -/
def Obligations.VerifyFollowsItsRule : Prop :=
  decode 0x00000002#32 = .ok .verify ∧
  ∀ (s : State) (l n c : Nat), l = s.entLen.toNat → n = s.extLen.toNat → c = (l / 4 + 7) / 8 →
    (l % 4 = 0 → l ≤ 1024 → n ≤ 1056 → ∃ t, exec .verify s = .next t ∧
      t = { s with result := { s.result with matched := t.result.matched }, status := okStatus s } ∧
      (t.result.matched = true ↔ l + c = n ∧
        ∀ a < n, (if a < l then s.mem.data a else checksumByteOf s.mem l (a - l)) = s.mem.data a)) ∧
    (l % 4 ≠ 0 → exec .verify s = .next (errorEnd s .invalidEntropyLength)) ∧
    (l % 4 = 0 → 1024 < l → exec .verify s = .next (errorEnd s .lengthRange)) ∧
    (l % 4 = 0 → l ≤ 1024 → 1056 < n → exec .verify s = .next (errorEnd s .lengthRange))

/-- UNPACK (spec/40_bitpacker.md R106), each entry bit by bit (R100, R101), with its frame. -/
def Obligations.UnpackFollowsItsRule : Prop :=
  decode 0x00000003#32 = .ok .unpack ∧
  ∀ (s : State) (n g : Nat), n = s.extLen.toNat → g = (8 * n + 10) / 11 →
    (n ≤ 1056 → ∃ t, exec .unpack s = .next t ∧
      t = { s with mem := t.mem, wcount := t.wcount, wfull := t.wfull, status := okStatus s } ∧
      t.wcount.toNat = g ∧ t.wfull.toNat = 8 * n / 11 ∧
      (∀ i < g, ∀ j < 11, (t.mem.word i).getLsbD (10 - j) =
        (decide (11 * i + j < 8 * n) && (s.mem.data ((11 * i + j) / 8)).getLsbD (7 - (11 * i + j) % 8))) ∧
      (∀ i < g, (t.mem.word i).toNat < 2048) ∧
      (∀ a, ¬(wordBase ≤ a ∧ a < wordBase + 2 * g) → t.mem.read a = s.mem.read a)) ∧
    (1056 < n → exec .unpack s = .next (errorEnd s .lengthRange))

/-- PACK and PACK.Z (spec/40_bitpacker.md R107), stream bit by stream bit (R104), with their frame. -/
def Obligations.PackFollowsItsRule : Prop :=
  decode 0x00000004#32 = .ok (.pack false) ∧ decode 0x00000104#32 = .ok (.pack true) ∧
  ∀ (s : State) (z : Bool) (n cnt : Nat), n = s.extLen.toNat → cnt = s.wcount.toNat →
    (n ≤ 1056 → cnt ≤ 768 → 11 * cnt ≤ 8 * n → ∃ t, exec (.pack z) s = .next t ∧
      t = { s with mem := t.mem, status := okStatus s } ∧
      (∀ p < 8 * n, dbit t.mem p =
        ((decide (p < 11 * cnt) && (s.mem.word (p / 11)).getLsbD (10 - p % 11)) || (!z && dbit s.mem p))) ∧
      (∀ a, ¬(dataBase ≤ a ∧ a < dataBase + n) → t.mem.read a = s.mem.read a)) ∧
    (1056 < n → exec (.pack z) s = .next (errorEnd s .lengthRange)) ∧
    (n ≤ 1056 → 768 < cnt → exec (.pack z) s = .next (errorEnd s .lengthRange)) ∧
    (n ≤ 1056 → cnt ≤ 768 → 8 * n < 11 * cnt → exec (.pack z) s = .next (errorEnd s .encodingOverflow))

/-- ENCODE (spec/42_mnemonic.md R140), with its frame: the checksum bytes, then the complete groups of the extended
buffer, and nothing else of either RAM. -/
def Obligations.EncodeFollowsItsRule : Prop :=
  decode 0x00000005#32 = .ok .encode ∧
  ∀ (s : State) (l c : Nat), l = s.entLen.toNat → c = (l / 4 + 7) / 8 →
    (l % 4 = 0 → l ≤ 1024 → ∃ t, exec .encode s = .next t ∧
      t = { s with
        mem := t.mem, extLen := t.extLen, wcount := t.wcount, wfull := t.wfull, status := okStatus s } ∧
      t.extLen.toNat = l + c ∧ t.wcount.toNat = 3 * l / 4 ∧ t.wfull.toNat = 3 * l / 4 ∧
      (∀ j < c, t.mem.data (l + j) = checksumByteOf s.mem l j) ∧
      (∀ i < 3 * l / 4, ∀ j < 11, (t.mem.word i).getLsbD (10 - j) = dbit t.mem (11 * i + j)) ∧
      (∀ i < 3 * l / 4, (t.mem.word i).toNat < 2048) ∧
      (∀ a, ¬(dataBase + l ≤ a ∧ a < dataBase + l + c) → ¬(wordBase ≤ a ∧ a < wordBase + 2 * (3 * l / 4)) →
        t.mem.read a = s.mem.read a)) ∧
    (l % 4 ≠ 0 → exec .encode s = .next (errorEnd s .invalidEntropyLength)) ∧
    (l % 4 = 0 → 1024 < l → exec .encode s = .next (errorEnd s .lengthRange))

/-- VALIDATE (spec/42_mnemonic.md R142), with its frame: the four answers that stop before the pack step change nothing
but VALID, VREASON and STATUS; the pack step leaves the packed buffer and its two lengths whatever the answer. -/
def Obligations.ValidateFollowsItsRule : Prop :=
  decode 0x00000006#32 = .ok .validate ∧
  ∀ (s : State) (n : Nat), n = s.wcount.toNat →
    let early := fun (r : VReason) => Host.Outcome.next (ρ := Refusal) (φ := Fault)
      { s with result := { s.result with valid := false, vreason := r }, status := okStatus s }
    (n = 0 → s.lev = false → exec .validate s = early .empty) ∧
    (n % 3 ≠ 0 → exec .validate s = early .count) ∧
    (n % 3 = 0 → 768 < n → exec .validate s = early .capacity) ∧
    (n % 3 = 0 → n ≤ 768 → (∃ i < n, 2048 ≤ (s.mem.word i).toNat) → exec .validate s = early .absent) ∧
    (n % 3 = 0 → n ≤ 768 → (n = 0 → s.lev = true) → (∀ i < n, (s.mem.word i).toNat < 2048) →
      ∃ t, exec .validate s = .next t ∧
        t = { s with
          mem := t.mem, entLen := t.entLen, extLen := t.extLen
          result := { s.result with valid := t.result.valid, vreason := t.result.vreason }
          status := okStatus s } ∧
        t.entLen.toNat = 11 * n * 32 / 33 / 8 ∧ t.extLen.toNat = (11 * n + 7) / 8 ∧
        (∀ p < 8 * t.extLen.toNat,
          dbit t.mem p = (decide (p < 11 * n) && (s.mem.word (p / 11)).getLsbD (10 - p % 11))) ∧
        (∀ a, ¬(dataBase ≤ a ∧ a < dataBase + t.extLen.toNat) → t.mem.read a = s.mem.read a) ∧
        ((t.result.valid = true ∧ t.result.vreason = .ok ∧
            ∀ j < t.extLen.toNat - t.entLen.toNat,
              checksumByteOf t.mem t.entLen.toNat j = t.mem.data (t.entLen.toNat + j)) ∨
          (t.result.valid = false ∧ t.result.vreason = .checksum ∧
            ∃ j < t.extLen.toNat - t.entLen.toNat,
              checksumByteOf t.mem t.entLen.toNat j ≠ t.mem.data (t.entLen.toNat + j))))

/-- VALIDATE is total and never answers OVERFLOW (spec/42_mnemonic.md R144, R145): it completes with ERRCODE = NONE, ERR
kept, from every state. -/
def Obligations.ValidateNeverFails : Prop :=
  (∀ s : State, ∃ t, exec .validate s = .next t ∧ t.status = okStatus s ∧ t.result.vreason ≠ .overflow ∧
    (t.result.valid = true ↔ t.result.vreason = .ok)) ∧
  ∀ n : Nat, 11 * n ≤ 8 * bufferBytes n

/-! ## Laws -/

/-- After an UNPACK that left a trailing partial group, WCOUNT is WFULL + 1, and a PACK with WCOUNT and EXT_LEN
unchanged raises ENCODING_OVERFLOW (spec/70_reset_and_hazards.md R227). -/
def Obligations.PackAfterTrailingGroupOverflows : Prop :=
  ∀ (s t u : State) (z : Bool), s.extLen.toNat ≤ 1056 → 8 * s.extLen.toNat % 11 ≠ 0 →
    exec .unpack s = .next t → u.extLen = t.extLen → u.wcount = t.wcount →
      t.wcount.toNat = t.wfull.toNat + 1 ∧ exec (.pack z) u = .next (errorEnd u .encodingOverflow)

/-- The write-then-read law of the BitPacker (spec/40_bitpacker.md R108), whatever the host did between the two commands
but to EXT_LEN and the buffer. -/
def Obligations.UnpackReadsWhatPackWrote : Prop :=
  ∀ s t u : State, exec (.pack true) s = .next t → t.status.errcode = .noError →
    u.extLen = t.extLen → (∀ a < t.extLen.toNat, u.mem.data a = t.mem.data a) →
      ∃ v, exec .unpack u = .next v ∧ v.status.errcode = .noError ∧
        (∀ i < s.wcount.toNat, v.mem.word i = s.mem.word i &&& 0x7FF#16) ∧
        (∀ i, s.wcount.toNat ≤ i → i < (8 * s.extLen.toNat + 10) / 11 → v.mem.word i = 0#16)

/-- The read-then-write law of the BitPacker (spec/40_bitpacker.md R109), whatever the host did between the two commands
but to EXT_LEN and the complete groups, once it has set WCOUNT to WFULL: the buffer comes back, its last `8N - 11F(N)`
stream bits cleared. -/
def Obligations.PackRestoresWhatUnpackRead : Prop :=
  ∀ s t u : State, exec .unpack s = .next t → t.status.errcode = .noError →
    u.extLen = t.extLen → u.wcount = t.wfull → (∀ i < t.wfull.toNat, u.mem.word i = t.mem.word i) →
      ∃ v, exec (.pack true) u = .next v ∧ v.status.errcode = .noError ∧
        ∀ p < 8 * s.extLen.toNat,
          dbit v.mem p = (decide (p < 11 * (8 * s.extLen.toNat / 11)) && dbit s.mem p)

/-- The extended-length law (spec/41_checksum.md R126): `T = L + ceil_div(L, 32)`, the meaningful bits are `33k`, and the
last 0 to 7 bits of the extension that APPEND leaves are zero. -/
def Obligations.ExtensionEndsInZeroBits : Prop :=
  ∀ s t : State, exec .append s = .next t → t.status.errcode = .noError →
    t.extLen.toNat = s.entLen.toNat + (s.entLen.toNat + 31) / 32 ∧
    8 * s.entLen.toNat + s.entLen.toNat / 4 = 33 * (s.entLen.toNat / 4) ∧
    8 * t.extLen.toNat - 33 * (s.entLen.toNat / 4) ≤ 7 ∧
    ∀ p, 33 * (s.entLen.toNat / 4) ≤ p → p < 8 * t.extLen.toNat → dbit t.mem p = false

/-- The APPEND-then-VERIFY law (spec/41_checksum.md R127). -/
def Obligations.VerifyAcceptsWhatAppendWrote : Prop :=
  ∀ s t u v : State, exec .append s = .next t → t.status.errcode = .noError →
    u.entLen = t.entLen → u.extLen = t.extLen → (∀ a < t.extLen.toNat, u.mem.data a = t.mem.data a) →
      exec .verify u = .next v → v.result.matched = true ∧ v.status.errcode = .noError

/-- The group count of ENCODE (spec/42_mnemonic.md R141): `F = 3k`, and where the extended buffer has a trailing partial
group, that group is zero (it holds only masked checksum bits and the reader's own zeros). -/
def Obligations.ExtensionHoldsThreeGroupsPerFourBytes : Prop :=
  ∀ l : Nat, l % 4 = 0 → l ≤ 1024 →
    fullCount (l + cksumBytes l) = 3 * (l / 4) ∧ 3 * (l / 4) = 3 * l / 4 ∧
    8 * (l + cksumBytes l) = 33 * (l / 4) + (8 * cksumBytes l - l / 4) ∧ 8 * cksumBytes l - l / 4 ≤ 7 ∧
    (8 * (l + cksumBytes l) % 11 = 0 ↔ l % 32 = 0) ∧
    (l % 32 ≠ 0 → groupCount (l + cksumBytes l) = fullCount (l + cksumBytes l) + 1 ∧
      ∀ m : Memory, rgroup (m.writeData l (cks m l)) (l + cksumBytes l) (3 * (l / 4)) = 0#16)

/-- The round-trip law (spec/42_mnemonic.md R148): VALIDATE answers VALID = 1 for what ENCODE wrote, for every legal
length, and recovers the extended entropy. -/
def Obligations.ValidateAcceptsWhatEncodeWrote : Prop :=
  ∀ s t u : State, exec .encode s = .next t → t.status.errcode = .noError →
    u.wcount = t.wcount → (∀ i < t.wcount.toNat, u.mem.word i = t.mem.word i) →
    (0 < s.entLen.toNat ∨ u.lev = true) →
      ∃ v, exec .validate u = .next v ∧ v.result.valid = true ∧ v.result.vreason = .ok ∧
        v.entLen = s.entLen ∧ v.extLen = t.extLen ∧ ∀ a < t.extLen.toNat, v.mem.data a = t.mem.data a

/-- The checksum law (spec/42_mnemonic.md R149): when VALIDATE reaches its comparison, it answers OK exactly when the
last `k` stream bits written are the top `k` bits of the digest of the first `4k` packed bytes; so entries whose packed
bits differ from valid ones only among those checksum bits always get the answer CHECKSUM. -/
def Obligations.ValidateTestsExactlyTheChecksumBits : Prop :=
  (∀ (s t : State) (k : Nat), exec .validate s = .next t → ReachedPack t → k = s.wcount.toNat / 3 →
    (t.result.valid = true ∧ t.result.vreason = .ok ↔
      ∀ b < k, dbit t.mem (32 * k + b) = (sha256 (t.mem.dataBytes (4 * k))).getMsbD b)) ∧
  (∀ (s s' t t' : State) (k : Nat), exec .validate s = .next t → exec .validate s' = .next t' → ReachedPack t' →
    s'.wcount = s.wcount → k = s.wcount.toNat / 3 → t.result.vreason = .ok →
    (∀ p < 32 * k, dbit t'.mem p = dbit t.mem p) → (∃ b < k, dbit t'.mem (32 * k + b) ≠ dbit t.mem (32 * k + b)) →
      t'.result.valid = false ∧ t'.result.vreason = .checksum)

/-! ## Whole-machine rules -/

/-- Every command completes from every state, and errors are precise (spec/60_exceptions.md R192, R193): either STATUS is
that of a success, or the whole state is the old one but for four STATUS fields. -/
def Obligations.CompletionsArePreciseOrSuccessful : Prop :=
  ∀ (i : Instr) (s : State), ∃ t, exec i s = .next t ∧
    (t.status = okStatus s ∨ ∃ code, code ≠ .noError ∧ t = errorEnd s code)

/-- Which command writes what (spec/10_state.md R37), over all commands and states: no command writes OVR, CTRL or a
latch; ERR is set only, and not by NOP or VALIDATE; each register field has its writers; and of the RAMs only the bytes
of `MayWrite` change. VALIDATE's lengths and bytes change only when it reaches its pack step. -/
def Obligations.CommandsWriteOnlyTheirFields : Prop :=
  ∀ (i : Instr) (s t : State), exec i s = .next t →
    t.ctrl = s.ctrl ∧ t.lcmd = s.lcmd ∧ t.lev = s.lev ∧ t.env = s.env ∧ t.status.ovr = s.status.ovr ∧
    (t.status.err ≠ s.status.err → t.status.err = true ∧ i ≠ .nop ∧ i ≠ .validate) ∧
    (t.entLen ≠ s.entLen → i = .validate ∧ ReachedPack t) ∧
    (t.extLen ≠ s.extLen → i = .append ∨ i = .encode ∨ (i = .validate ∧ ReachedPack t)) ∧
    (t.wcount ≠ s.wcount → i = .unpack ∨ i = .encode) ∧
    (t.wfull ≠ s.wfull → i = .unpack ∨ i = .encode) ∧
    (t.result.valid ≠ s.result.valid → i = .validate) ∧
    (t.result.vreason ≠ s.result.vreason → i = .validate) ∧
    (t.result.matched ≠ s.result.matched → i = .verify) ∧
    (∀ a, t.mem.read a ≠ s.mem.read a → MayWrite i s a ∧ (i = .validate → ReachedPack t))

/-- A command's outputs depend on nothing but its operands (spec/30_encoding.md R83). -/
def Obligations.CommandsReadOnlyTheirOperands : Prop :=
  ∀ (i : Instr) (s₁ s₂ t₁ t₂ : State), InputsAgree i s₁ s₂ → exec i s₁ = .next t₁ → exec i s₂ = .next t₂ →
    t₁.status.errcode = t₂.status.errcode ∧ (t₁.status.errcode = .noError → OutputsAgree i t₁ t₂)

/-! ## The bus -/

/-- The address map (spec/20_memory.md R53 to R55): a misaligned or unmapped offset answers ERROR, reads 0 and changes
nothing; every other offset answers OKAY. -/
def Obligations.BusErrorsHaveNoEffect : Prop :=
  ∀ (s : State) (off : Offset) (v : Word) (a : Nat), a = off.toNat →
    ((a % 4 ≠ 0 ∨ (0x0024 ≤ a ∧ a < 0x1000) ∨ (0x1420 ≤ a ∧ a < 0x2000) ∨ 0x2600 ≤ a) →
      busResp off = .error ∧ readData s off = 0x00000000#32 ∧ busWrite s off v = s) ∧
    (a % 4 = 0 → (a < 0x0024 ∨ (0x1000 ≤ a ∧ a < 0x1420) ∨ (0x2000 ≤ a ∧ a < 0x2600)) → busResp off = .okay)

/-- The DATA window while idle (spec/20_memory.md R56): four bytes a word, the lowest in the least significant lane. -/
def Obligations.DataWindowIsLittleEndian : Prop :=
  ∀ (s : State) (j : Nat) (v : Word), j < 264 → s.status.busy = false →
    let off := BitVec.ofNat 14 (0x1000 + 4 * j)
    busResp off = .okay ∧
    readData s off = (s.mem.data (4 * j)).setWidth 32 ||| (s.mem.data (4 * j + 1)).setWidth 32 <<< 8 |||
      (s.mem.data (4 * j + 2)).setWidth 32 <<< 16 ||| (s.mem.data (4 * j + 3)).setWidth 32 <<< 24 ∧
    busWrite s off v = { s with mem := (busWrite s off v).mem } ∧
    (∀ k < 4, (busWrite s off v).mem.data (4 * j + k) = v.extractLsb' (8 * k) 8) ∧
    (∀ a, ¬(0x1000 + 4 * j ≤ a ∧ a < 0x1000 + 4 * j + 4) → (busWrite s off v).mem.read a = s.mem.read a)

/-- The WORD window while idle (spec/20_memory.md R57): two entries a word, the even one in the low half. -/
def Obligations.WordWindowHasTheEvenEntryLow : Prop :=
  ∀ (s : State) (j : Nat) (v : Word), j < 384 → s.status.busy = false →
    let off := BitVec.ofNat 14 (0x2000 + 4 * j)
    busResp off = .okay ∧
    readData s off = (s.mem.word (2 * j)).setWidth 32 ||| (s.mem.word (2 * j + 1)).setWidth 32 <<< 16 ∧
    busWrite s off v = { s with mem := (busWrite s off v).mem } ∧
    (busWrite s off v).mem.word (2 * j) = v.extractLsb' 0 16 ∧
    (busWrite s off v).mem.word (2 * j + 1) = v.extractLsb' 16 16 ∧
    (∀ a, ¬(0x2000 + 4 * j ≤ a ∧ a < 0x2000 + 4 * j + 4) → (busWrite s off v).mem.read a = s.mem.read a)

/-- Writes while BUSY = 1 (spec/20_memory.md R58, spec/60_exceptions.md R194): those to what a command reads or writes
set OVR and do nothing else; CTRL and STATUS take theirs; the read-only registers ignore theirs; all answer OKAY. -/
def Obligations.BusyWritesAreDropped : Prop :=
  ∀ (s : State) (off : Offset) (v : Word) (a : Nat), a = off.toNat → s.status.busy = true →
    (a % 4 = 0 → (a = 0x000C ∨ a = 0x0010 ∨ a = 0x0014 ∨ a = 0x0018 ∨ (0x1000 ≤ a ∧ a < 0x1420) ∨
        (0x2000 ≤ a ∧ a < 0x2600)) →
      busWrite s off v = { s with status := { s.status with ovr := true } } ∧ busResp off = .okay ∧
        (busWrite s off v).irq = s.irq) ∧
    (a = 0x0004 → busWrite s off v = { s with ctrl := { irqEn := v.getLsbD 0, emptyValid := v.getLsbD 1 } } ∧
      busResp off = .okay) ∧
    (a = 0x0008 → busWrite s off v = { s with status := { s.status with
        done := s.status.done && !v.getLsbD 1
        err := s.status.err && !v.getLsbD 2
        ovr := s.status.ovr && !v.getLsbD 3 } } ∧ busResp off = .okay) ∧
    ((a = 0x0000 ∨ a = 0x001C ∨ a = 0x0020) → busWrite s off v = s ∧ busResp off = .okay)

/-- Reads while BUSY = 1 (spec/20_memory.md R59): the gated ones answer OKAY, and of the word they return, which the spec
leaves open, nothing is said (the free value of log entry 2); ID, CTRL, STATUS and CMD return their defined values at all
times; no read changes the block. -/
def Obligations.BusyReadsAreGated : Prop :=
  ∀ (s : State) (off : Offset) (a : Nat), a = off.toNat →
    (s.status.busy = true → a % 4 = 0 → ((0x0010 ≤ a ∧ a < 0x0024) ∨ (0x1000 ≤ a ∧ a < 0x1420) ∨
        (0x2000 ≤ a ∧ a < 0x2600)) → busResp off = .okay) ∧
    (a = 0x0000 → readData s off = 0x42503131#32 ∧ busResp off = .okay) ∧
    (a = 0x0004 → readData s off = s.ctrl.toWord ∧ busResp off = .okay) ∧
    (a = 0x0008 → readData s off = s.status.toWord ∧ busResp off = .okay) ∧
    (a = 0x000C → readData s off = 0x00000000#32 ∧ busResp off = .okay) ∧
    hostRead s off = { s with env := (hostRead s off).env }

/-- Reads are idempotent and so are the plain writes while idle (spec/20_memory.md R61): a write made twice to CTRL,
ENT_LEN, EXT_LEN, WCOUNT or a RAM word leaves what it leaves once. -/
def Obligations.RepeatedAccessesAreIdempotent : Prop :=
  ∀ (s : State) (off : Offset) (v : Word), s.status.busy = false →
    (∀ s' : State, hostRead s' off = { s' with env := (hostRead s' off).env }) ∧
    ((off.toNat = 0x0004 ∨ off.toNat = 0x0010 ∨ off.toNat = 0x0014 ∨ off.toNat = 0x0018 ∨ 0x1000 ≤ off.toNat) →
      let t := busWrite s off v
      let u := busWrite t off v
      u = { t with mem := u.mem } ∧ ∀ a, u.mem.read a = t.mem.read a)

/-- STATUS (spec/10_state.md R25): where its fields stand in the word read, that the rest reads 0, and that a write
clears DONE, ERR and OVR where its bits are 1 and changes nothing else, BUSY or not. -/
def Obligations.StatusIsWriteOneToClear : Prop :=
  ∀ (s : State) (v : Word),
    (readData s 0x0008#14).getLsbD 0 = s.status.busy ∧ (readData s 0x0008#14).getLsbD 1 = s.status.done ∧
    (readData s 0x0008#14).getLsbD 2 = s.status.err ∧ (readData s 0x0008#14).getLsbD 3 = s.status.ovr ∧
    (readData s 0x0008#14).extractLsb' 4 4 = 0#4 ∧
    (readData s 0x0008#14).extractLsb' 8 4 = s.status.errcode.code ∧
    (readData s 0x0008#14).extractLsb' 12 20 = 0#20 ∧
    busWrite s 0x0008#14 v = { s with status := { s.status with
      done := s.status.done && !v.getLsbD 1
      err := s.status.err && !v.getLsbD 2
      ovr := s.status.ovr && !v.getLsbD 3 } }

/-- What the writable registers store while idle, read back (spec/10_state.md R24, R27, R28, R29): their fields, the
reserved bits 0; and a write changes its own register alone. -/
def Obligations.RegistersReadBackTheirFields : Prop :=
  ∀ (s : State) (v : Word), s.status.busy = false →
    readData (busWrite s 0x0004#14 v) 0x0004#14 = v &&& 0x00000003#32 ∧
    readData (busWrite s 0x0010#14 v) 0x0010#14 = v &&& 0x000007FF#32 ∧
    readData (busWrite s 0x0014#14 v) 0x0014#14 = v &&& 0x000007FF#32 ∧
    readData (busWrite s 0x0018#14 v) 0x0018#14 = v &&& 0x000003FF#32 ∧
    busWrite s 0x0004#14 v = { s with ctrl := { irqEn := v.getLsbD 0, emptyValid := v.getLsbD 1 } } ∧
    busWrite s 0x0010#14 v = { s with entLen := (busWrite s 0x0010#14 v).entLen } ∧
    busWrite s 0x0014#14 v = { s with extLen := (busWrite s 0x0014#14 v).extLen } ∧
    busWrite s 0x0018#14 v = { s with wcount := (busWrite s 0x0018#14 v).wcount }

/-- The read-only registers (spec/10_state.md R23, R30, R31): ID reads its constant in every state, WFULL and RESULT
show their fields while idle, and writes to the three are ignored with OKAY. -/
def Obligations.ReadOnlyRegistersIgnoreWrites : Prop :=
  ∀ (s : State) (v : Word),
    readData s 0x0000#14 = 0x42503131#32 ∧
    (∀ off ∈ [0x0000#14, 0x001C#14, 0x0020#14], busWrite s off v = s ∧ busResp off = .okay) ∧
    (s.status.busy = false →
      readData s 0x001C#14 = s.wfull.setWidth 32 ∧
      (readData s 0x0020#14).getLsbD 0 = s.result.valid ∧ (readData s 0x0020#14).getLsbD 1 = s.result.matched ∧
      (readData s 0x0020#14).extractLsb' 2 2 = 0#2 ∧
      (readData s 0x0020#14).extractLsb' 4 3 = s.result.vreason.code ∧
      (readData s 0x0020#14).extractLsb' 7 25 = 0#25)

/-- Acceptance (spec/43_control.md R170, spec/10_state.md R26): a write to CMD while idle latches the word and
EMPTY_VALID and sets BUSY, and nothing else changes; while busy it is dropped; CMD reads 0. -/
def Obligations.CmdWriteIsAcceptedOnlyWhileIdle : Prop :=
  ∀ (s : State) (v : Word),
    readData s 0x000C#14 = 0x00000000#32 ∧ busResp 0x000C#14 = .okay ∧
    (s.status.busy = false → busWrite s 0x000C#14 v =
      { s with lcmd := v, lev := s.ctrl.emptyValid, status := { s.status with busy := true } }) ∧
    (s.status.busy = true → busWrite s 0x000C#14 v = { s with status := { s.status with ovr := true } })

/-- The interrupt (spec/60_exceptions.md R195): high after every completion where it is enabled, whether with an error or
without; low after a write of 1 to DONE, and while IRQ_EN is 0. -/
def Obligations.InterruptFollowsCompletion : Prop :=
  (∀ s : State, s.irq = (s.ctrl.irqEn && s.status.done)) ∧
  (∀ (s t : State), s.status.busy = true → engineMove s = .next t → t.irq = s.ctrl.irqEn) ∧
  (∀ (s : State) (v : Word), v.getLsbD 1 = true → (busWrite s 0x0008#14 v).irq = false) ∧
  (∀ (s : State) (v : Word), v.getLsbD 0 = false → (busWrite s 0x0004#14 v).irq = false) ∧
  (∀ (s : State) (v : Word), v.getLsbD 0 = true → (busWrite s 0x0004#14 v).irq = s.status.done)

/-- One transaction is one host step (spec/20_memory.md R52): it has its whole effect on the block, and its reply is what
the bus gives back. Script, schedule and replies are the model's (log entries 3, 4 and 5). -/
def Obligations.OneTransactionIsOneHostStep : Prop :=
  (∀ (s : State) (off : Offset) (v : Word) (rest : List HostOp), s.nextTurn = .host →
    s.env.script = .write off v :: rest →
      step s = .next { busWrite s off v with env :=
        { s.env with
          script := rest, turns := s.env.turns.tail, replies := .write (busResp off) :: s.env.replies } }) ∧
  (∀ (s : State) (off : Offset) (rest : List HostOp), s.nextTurn = .host → s.env.script = .read off :: rest →
    step s = .next { s with env :=
      { script := rest, turns := s.env.turns.tail
        replies := .read (readData s off) (busResp off) :: s.env.replies, reads := s.env.reads + 1 } })

/-- WAIT (spec/30_encoding.md R90, spec/20_memory.md R64): the host goes past it exactly when the STATUS it reads has BUSY
clear, and a poll changes nothing of the block. The other wait of spec/43_control.md R175 ends exactly when `irq` is 1
and is no transaction. The two moves, and the script that holds them, are the model's (log entries 3 and 13). -/
def Obligations.WaitEndsWhenBusyIsClear : Prop :=
  (∀ (s : State) (rest : List HostOp), s.env.script = .poll :: rest →
    (hostMove s).env.replies = .read s.status.toWord .okay :: s.env.replies ∧
    (hostMove s).env.script = (if s.status.busy then .poll :: rest else rest) ∧
    hostMove s = { s with env := (hostMove s).env }) ∧
  (∀ (s : State) (rest : List HostOp), s.env.script = .awaitIrq :: rest →
    hostMove s = s.withScript (if s.ctrl.irqEn && s.status.done then rest else .awaitIrq :: rest))

/-- LOADD and LOADW (spec/30_encoding.md R90), run by an idle block: the listed bytes and entries stand in their RAM, the
rest of the last word is 0, and nothing else changes. That the host moves at every step, one a word, rests on the model's
script and on its empty schedule (log entries 3 and 4). -/
def Obligations.LoadStatementsFillTheRams : Prop :=
  (∀ (s : State) (i : Nat) (bs : List Byte), s.status.busy = false → s.env.turns = [] → i % 4 = 0 →
    i + bs.length ≤ 1056 → ∃ t, Host.Core.run Sys2Proof.core ((bs.length + 3) / 4)
      (s.withScript (expandStmt (.loadd i bs))) = .next t ∧ t.env.script = [] ∧
      t = { s with mem := t.mem, env := t.env } ∧
      (∀ k < 4 * ((bs.length + 3) / 4), t.mem.data (i + k) = bs.getD k 0x00#8) ∧
      (∀ a, ¬(dataBase + i ≤ a ∧ a < dataBase + i + 4 * ((bs.length + 3) / 4)) → t.mem.read a = s.mem.read a)) ∧
  (∀ (s : State) (i : Nat) (es : List Entry), s.status.busy = false → s.env.turns = [] → i % 2 = 0 →
    i + es.length ≤ 768 → ∃ t, Host.Core.run Sys2Proof.core ((es.length + 1) / 2)
      (s.withScript (expandStmt (.loadw i es))) = .next t ∧ t.env.script = [] ∧
      t = { s with mem := t.mem, env := t.env } ∧
      (∀ k < 2 * ((es.length + 1) / 2), t.mem.word (i + k) = es.getD k 0x0000#16) ∧
      (∀ a, ¬(wordBase + 2 * i ≤ a ∧ a < wordBase + 2 * i + 4 * ((es.length + 1) / 2)) →
        t.mem.read a = s.mem.read a))

/-- The completion handshake (spec/20_memory.md R64, spec/43_control.md R174, R175): a host that writes CMD and then waits
comes past the wait, however its moves and the engine's interleave, and finds the block exactly as the completion left
it (script, schedule and so the bound on the steps are the model's, log entries 3 and 4). -/
def Obligations.HandshakeSeesTheCompletion : Prop :=
  ∀ (s : State) (v : Word) (rest : List HostOp), s.status.busy = false → Turn.reset ∉ s.env.turns →
    s.env.script = .write 0x000C#14 v :: .poll :: rest →
    (∃ k ≤ s.env.turns.length + 3, ∃ t : State, Host.Core.run Sys2Proof.core k s = .next t ∧ t.env.script = rest) ∧
    (∀ (k : Nat) (t : State), Host.Core.run Sys2Proof.core k s = .next t → t.env.script = rest →
      ∃ u : State, engineMove (accept s v) = .next u ∧ t = { u with env := t.env } ∧ t.status.busy = false ∧
        t.status.done = true)

/-- The codes (spec/30_encoding.md R85, R86, spec/60_exceptions.md R190): their numbers, and that no other is ever held. -/
def Obligations.CodesAreNumberedAsListed : Prop :=
  ErrCode.code .noError = 0#4 ∧ ErrCode.code .invalidEntropyLength = 1#4 ∧ ErrCode.code .encodingOverflow = 2#4 ∧
  ErrCode.code .lengthRange = 3#4 ∧ ErrCode.code .illegalCommand = 4#4 ∧
  VReason.code .ok = 0#3 ∧ VReason.code .empty = 1#3 ∧ VReason.code .count = 2#3 ∧ VReason.code .capacity = 3#3 ∧
  VReason.code .absent = 4#3 ∧ VReason.code .overflow = 5#3 ∧ VReason.code .checksum = 6#3 ∧
  ∀ s : State, s.status.errcode.code.toNat ≤ 4 ∧ s.result.vreason.code.toNat ≤ 6
end

