-- ==== Sys2Proof/Laws/Memory.lean ====
section
/-! SUPPORT. What the operations over the RAMs do: a read after a write, the canonical form, and ranges of bytes and entries. -/

namespace Sys2Proof.Machine

theorem lookupCell_insertCell_self (a : Nat) (v : Byte) (cs : List Host.Cell) :
    lookupCell a (insertCell a v cs) = some v := by
  induction cs with
  | nil => simp [insertCell, lookupCell]
  | cons c rest ih =>
    obtain ⟨k, w⟩ := c
    simp only [insertCell]
    split
    · simp [lookupCell]
    · split
      · simp [lookupCell]
      · have : k ≠ a := by omega
        simp [lookupCell, this, ih]

theorem lookupCell_insertCell_other {a b : Nat} (h : b ≠ a) (v : Byte) (cs : List Host.Cell) :
    lookupCell b (insertCell a v cs) = lookupCell b cs := by
  have h' : a ≠ b := fun e => h e.symm
  induction cs with
  | nil => simp [insertCell, lookupCell, h']
  | cons c rest ih =>
    obtain ⟨k, w⟩ := c
    simp only [insertCell]
    split
    · simp [lookupCell, h']
    · split
      · rename_i _ hk
        subst hk
        simp [lookupCell, h']
      · simp [lookupCell, ih]

@[simp] theorem Memory.write_epoch (m : Memory) (a : Nat) (v : Byte) : (m.write a v).epoch = m.epoch := rfl

theorem Memory.read_write (m : Memory) (a b : Nat) (v : Byte) :
    (m.write a v).read b = if b = a then v else m.read b := by
  unfold Memory.read Memory.write Memory.unlisted
  split
  · rename_i h
    subst h
    simp [lookupCell_insertCell_self]
  · rename_i h
    simp [lookupCell_insertCell_other h]

@[simp] theorem Memory.read_write_self (m : Memory) (a : Nat) (v : Byte) : (m.write a v).read a = v := by
  simp [Memory.read_write]

theorem Memory.read_write_other (m : Memory) {a b : Nat} (h : b ≠ a) (v : Byte) : (m.write a v).read b = m.read b := by
  simp [Memory.read_write, h]

/-! ## The canonical form -/

/-- The offset of the first cell, for the ordering lemma below. -/
theorem risingCells_insertCell (a : Nat) (v : Byte) (cs : List Host.Cell) (h : risingCells cs = true) :
    risingCells (insertCell a v cs) = true := by
  induction cs with
  | nil => simp [insertCell, risingCells]
  | cons c rest ih =>
    obtain ⟨k, w⟩ := c
    simp only [insertCell]
    split
    · rename_i hak
      simp [risingCells, hak, h]
    · split
      · rename_i _ hak
        subst hak
        cases rest with
        | nil => simp [risingCells]
        | cons d ds =>
          obtain ⟨l, u⟩ := d
          simpa [risingCells] using h
      · rename_i h1 h2
        cases rest with
        | nil =>
          simp [insertCell, risingCells]
          omega
        | cons d ds =>
          obtain ⟨l, u⟩ := d
          simp only [risingCells, Bool.and_eq_true, decide_eq_true_eq] at h
          have ih' := ih h.2
          simp only [insertCell] at ih' ⊢
          split
          · rename_i h3
            simp only [risingCells, Bool.and_eq_true, decide_eq_true_eq]
            exact ⟨by omega, by omega, h.2⟩
          · split
            · rename_i h3 h4
              subst h4
              simp at ih'
              simp [risingCells, ih']
              omega
            · rename_i h3 h4
              simp [h3, h4] at ih'
              simp [risingCells, ih', h.1]

theorem all_insertCell (p : Host.Cell → Bool) (a : Nat) (v : Byte) (cs : List Host.Cell) (h : cs.all p = true)
    (hp : p (a, v) = true) : (insertCell a v cs).all p = true := by
  induction cs with
  | nil => simpa [insertCell] using hp
  | cons c rest ih =>
    obtain ⟨k, w⟩ := c
    simp only [List.all_cons, Bool.and_eq_true] at h
    simp only [insertCell]
    split
    · simp [hp, h.1, h.2]
    · split
      · simp [hp, h.2]
      · simp [h.1, ih h.2]

theorem Memory.wf_write {m : Memory} {a : Nat} {v : Byte} (h : m.wf = true) (ha : ramOffset a = true) :
    (m.write a v).wf = true := by
  simp only [Memory.wf, Bool.and_eq_true] at h ⊢
  exact ⟨risingCells_insertCell a v _ h.1, all_insertCell _ a v _ h.2 ha⟩

theorem Memory.wf_empty (e : Nat) : (Memory.mk [] e).wf = true := rfl

theorem ramOffset_data {i : Nat} (h : i < 1056) : ramOffset (dataBase + i) = true := by
  unfold ramOffset dataBase
  rw [Bool.or_eq_true, Bool.and_eq_true, Bool.and_eq_true]
  exact Or.inl ⟨decide_eq_true (by omega), decide_eq_true (by omega)⟩

theorem ramOffset_word {a : Nat} (h : a < 1536) : ramOffset (wordBase + a) = true := by
  unfold ramOffset wordBase
  rw [Bool.or_eq_true, Bool.and_eq_true, Bool.and_eq_true]
  exact Or.inr ⟨decide_eq_true (by omega), decide_eq_true (by omega)⟩

theorem Memory.wf_setData {m : Memory} {i : Nat} {v : Byte} (h : m.wf = true) (hi : i < 1056) :
    (m.setData i v).wf = true :=
  Memory.wf_write h (ramOffset_data hi)

theorem Memory.wf_setWord {m : Memory} {i : Nat} {e : Entry} (h : m.wf = true) (hi : i < 768) :
    (m.setWord i e).wf = true := by
  refine Memory.wf_write (Memory.wf_write h ?_) ?_
  · exact ramOffset_word (by omega)
  · rw [Nat.add_assoc]
    exact ramOffset_word (by omega)

theorem Memory.wf_writeData (bs : List Byte) : ∀ {m : Memory} {i : Nat}, m.wf = true → i + bs.length ≤ 1056 →
    (m.writeData i bs).wf = true := by
  induction bs with
  | nil => intro m i h _; simpa [Memory.writeData] using h
  | cons b bs ih =>
    intro m i h hi
    simp only [List.length_cons] at hi
    exact ih (Memory.wf_setData h (by omega)) (by omega)

theorem Memory.wf_writeWords (es : List Entry) : ∀ {m : Memory} {i : Nat}, m.wf = true → i + es.length ≤ 768 →
    (m.writeWords i es).wf = true := by
  induction es with
  | nil => intro m i h _; simpa [Memory.writeWords] using h
  | cons e es ih =>
    intro m i h hi
    simp only [List.length_cons] at hi
    exact ih (Memory.wf_setWord h (by omega)) (by omega)

theorem Memory.wf_zeroData {m : Memory} {n : Nat} (h : m.wf = true) (hn : n ≤ 1056) : (m.zeroData n).wf = true :=
  Memory.wf_writeData _ h (by simpa using hn)

theorem Memory.wf_writeLanes {m : Memory} {a : Nat} {v : Word} (h : m.wf = true)
    (ha : ∀ k < 4, ramOffset (a + k) = true) : (m.writeLanes a v).wf = true :=
  Memory.wf_write (Memory.wf_write (Memory.wf_write (Memory.wf_write h (ha 0 (by omega))) (ha 1 (by omega)))
    (ha 2 (by omega))) (ha 3 (by omega))

/-! ## Bytes and entries -/

theorem Memory.read_setData (m : Memory) (i a : Nat) (v : Byte) :
    (m.setData i v).read a = if a = dataBase + i then v else m.read a :=
  Memory.read_write m (dataBase + i) a v

theorem Memory.data_setData (m : Memory) (i j : Nat) (v : Byte) :
    (m.setData i v).data j = if j = i then v else m.data j := by
  unfold Memory.data
  rw [Memory.read_setData]
  simp

theorem Memory.read_setWord (m : Memory) (i a : Nat) (e : Entry) :
    (m.setWord i e).read a =
      if a = wordBase + 2 * i + 1 then e.extractLsb' 8 8
      else if a = wordBase + 2 * i then e.extractLsb' 0 8 else m.read a := by
  unfold Memory.setWord
  rw [Memory.read_write, Memory.read_write]

theorem Memory.word_setWord (m : Memory) (i j : Nat) (e : Entry) :
    (m.setWord i e).word j = if j = i then e else m.word j := by
  unfold Memory.word
  rw [Memory.read_setWord, Memory.read_setWord]
  by_cases h : j = i
  · subst h
    simp only [if_pos, Nat.left_eq_add, show (1 : Nat) ≠ 0 by decide]
    ext k hk
    simp only [BitVec.getElem_append, BitVec.getElem_extractLsb']
    split
    · simp [BitVec.getLsbD_eq_getElem hk]
    · rw [show 8 + (k - 8) = k by omega, BitVec.getLsbD_eq_getElem hk]
  · have h2 : wordBase + 2 * j + 1 ≠ wordBase + 2 * i := by omega
    have h3 : wordBase + 2 * j ≠ wordBase + 2 * i + 1 := by omega
    simp [h, h2, h3]

theorem Memory.read_writeData (bs : List Byte) : ∀ (m : Memory) (i a : Nat), (m.writeData i bs).read a =
    if dataBase + i ≤ a ∧ a < dataBase + i + bs.length then bs.getD (a - (dataBase + i)) 0x00#8 else m.read a := by
  induction bs with
  | nil =>
    intro m i a
    simp only [Memory.writeData, List.length_nil]
    split
    · omega
    · rfl
  | cons b bs ih =>
    intro m i a
    simp only [Memory.writeData, List.length_cons]
    rw [ih, Memory.read_setData]
    by_cases h : a = dataBase + i
    · subst h
      simp
    · by_cases h2 : dataBase + (i + 1) ≤ a ∧ a < dataBase + (i + 1) + bs.length
      · have h3 : dataBase + i ≤ a ∧ a < dataBase + i + (bs.length + 1) := by omega
        have h4 : a - (dataBase + i) = (a - (dataBase + (i + 1))) + 1 := by omega
        rw [if_pos h2, if_pos h3, h4, List.getD_cons_succ]
      · have h3 : ¬(dataBase + i ≤ a ∧ a < dataBase + i + (bs.length + 1)) := by omega
        rw [if_neg h2, if_neg h3, if_neg h]

theorem Memory.data_writeData (m : Memory) (i j : Nat) (bs : List Byte) : (m.writeData i bs).data j =
    if i ≤ j ∧ j < i + bs.length then bs.getD (j - i) 0x00#8 else m.data j := by
  unfold Memory.data
  rw [Memory.read_writeData]
  by_cases h : i ≤ j ∧ j < i + bs.length
  · have h2 : dataBase + i ≤ dataBase + j ∧ dataBase + j < dataBase + i + bs.length := by omega
    rw [if_pos h, if_pos h2, show dataBase + j - (dataBase + i) = j - i by omega]
  · have h2 : ¬(dataBase + i ≤ dataBase + j ∧ dataBase + j < dataBase + i + bs.length) := by omega
    rw [if_neg h, if_neg h2]

theorem Memory.read_writeWords_other (es : List Entry) : ∀ (m : Memory) (i a : Nat),
    ¬(wordBase + 2 * i ≤ a ∧ a < wordBase + 2 * (i + es.length)) → (m.writeWords i es).read a = m.read a := by
  induction es with
  | nil => intro m i a _; rfl
  | cons e es ih =>
    intro m i a h
    simp only [List.length_cons] at h
    simp only [Memory.writeWords]
    rw [ih _ _ _ (by omega), Memory.read_setWord, if_neg (by omega), if_neg (by omega)]

theorem Memory.word_writeWords (es : List Entry) : ∀ (m : Memory) (i j : Nat), (m.writeWords i es).word j =
    if i ≤ j ∧ j < i + es.length then es.getD (j - i) 0x0000#16 else m.word j := by
  induction es with
  | nil =>
    intro m i j
    simp only [Memory.writeWords, List.length_nil]
    split
    · omega
    · rfl
  | cons e es ih =>
    intro m i j
    simp only [Memory.writeWords, List.length_cons]
    rw [ih, Memory.word_setWord]
    by_cases h : j = i
    · subst h
      simp
    · by_cases h2 : i + 1 ≤ j ∧ j < i + 1 + es.length
      · have h3 : i ≤ j ∧ j < i + (es.length + 1) := by omega
        rw [if_pos h2, if_pos h3, show j - i = (j - (i + 1)) + 1 by omega, List.getD_cons_succ]
      · have h3 : ¬(i ≤ j ∧ j < i + (es.length + 1)) := by omega
        rw [if_neg h2, if_neg h3, if_neg h]

/-- DATA and WORD do not overlap: storing entries leaves the bytes of DATA. -/
theorem Memory.data_writeWords (m : Memory) (i j : Nat) (es : List Entry) (h : j < 0x1000) :
    (m.writeWords i es).data j = m.data j := by
  unfold Memory.data
  refine Memory.read_writeWords_other es m i _ ?_
  unfold dataBase wordBase
  omega

/-- DATA and WORD do not overlap: storing bytes of DATA leaves the entries. -/
theorem Memory.word_setData (m : Memory) (i j : Nat) (v : Byte) (h : i < 0x1000) :
    (m.setData i v).word j = m.word j := by
  unfold Memory.word
  rw [Memory.read_setData, Memory.read_setData, if_neg, if_neg] <;> (unfold dataBase wordBase; omega)

theorem Memory.word_writeData (bs : List Byte) : ∀ (m : Memory) (i j : Nat), i + bs.length ≤ 0x1000 →
    (m.writeData i bs).word j = m.word j := by
  induction bs with
  | nil => intro m i j _; rfl
  | cons b bs ih =>
    intro m i j h
    simp only [List.length_cons] at h
    simp only [Memory.writeData]
    rw [ih _ _ _ (by omega), Memory.word_setData _ _ _ _ (by omega)]

theorem Memory.data_zeroData (m : Memory) (n j : Nat) :
    (m.zeroData n).data j = if j < n then 0x00#8 else m.data j := by
  unfold Memory.zeroData
  rw [Memory.data_writeData]
  simp only [List.length_replicate, Nat.zero_le, true_and, Nat.zero_add, Nat.sub_zero]
  split
  · rename_i h
    simp [h]
  · rfl

theorem Memory.word_zeroData (m : Memory) (n j : Nat) (h : n ≤ 0x1000) : (m.zeroData n).word j = m.word j :=
  Memory.word_writeData _ m 0 j (by simpa using h)

theorem Memory.read_zeroData_other (m : Memory) (n a : Nat) (h : ¬(dataBase ≤ a ∧ a < dataBase + n)) :
    (m.zeroData n).read a = m.read a := by
  unfold Memory.zeroData
  rw [Memory.read_writeData, if_neg]
  simpa using h

@[simp] theorem Memory.length_dataBytes (m : Memory) (n : Nat) : (m.dataBytes n).length = n := by
  simp [Memory.dataBytes]

@[simp] theorem Memory.length_wordEntries (m : Memory) (n : Nat) : (m.wordEntries n).length = n := by
  simp [Memory.wordEntries]

/-- A byte string depends only on its own bytes. -/
theorem Memory.dataBytes_congr {m₁ m₂ : Memory} {n : Nat} (h : ∀ a < n, m₁.data a = m₂.data a) :
    m₁.dataBytes n = m₂.dataBytes n :=
  List.map_congr_left fun a ha => h a (List.mem_range.mp ha)

theorem Memory.wordEntries_congr {m₁ m₂ : Memory} {n : Nat} (h : ∀ j < n, m₁.word j = m₂.word j) :
    m₁.wordEntries n = m₂.wordEntries n :=
  List.map_congr_left fun a ha => h a (List.mem_range.mp ha)

theorem Memory.getD_wordEntries (m : Memory) {n j : Nat} (h : j < n) (d : Entry) :
    (m.wordEntries n).getD j d = m.word j := by
  simp [Memory.wordEntries, List.getD_eq_getElem?_getD, h]

theorem Memory.getD_dataBytes (m : Memory) {n j : Nat} (h : j < n) (d : Byte) :
    (m.dataBytes n).getD j d = m.data j := by
  simp [Memory.dataBytes, List.getD_eq_getElem?_getD, h]

/-! ## The bus lanes -/

theorem Memory.read_writeLanes (m : Memory) (a b : Nat) (v : Word) : (m.writeLanes a v).read b =
    if b = a + 3 then v.extractLsb' 24 8
    else if b = a + 2 then v.extractLsb' 16 8
    else if b = a + 1 then v.extractLsb' 8 8
    else if b = a then v.extractLsb' 0 8 else m.read b := by
  simp only [Memory.writeLanes, Memory.read_write]

theorem Memory.readLanes_writeLanes (m : Memory) (a : Nat) (v : Word) : (m.writeLanes a v).readLanes a = v := by
  unfold Memory.readLanes
  simp only [Memory.read_writeLanes, if_true, show a + 2 ≠ a + 3 by omega, show a + 1 ≠ a + 3 by omega,
    show a + 1 ≠ a + 2 by omega, show a ≠ a + 3 by omega, show a ≠ a + 2 by omega, show a ≠ a + 1 by omega, if_false]
  ext k hk
  simp only [BitVec.getElem_append, BitVec.getElem_extractLsb']
  split
  · simp [BitVec.getLsbD_eq_getElem hk]
  · split
    · rw [show 8 + (k - 8) = k by omega, BitVec.getLsbD_eq_getElem hk]
    · split
      · rw [show 16 + (k - 8 - 8) = k by omega, BitVec.getLsbD_eq_getElem hk]
      · rw [show 24 + (k - 8 - 8 - 8) = k by omega, BitVec.getLsbD_eq_getElem hk]

end Sys2Proof.Machine
end

