-- ==== Sys2Proof/Laws/Stream.lean ====
section
/-! SUPPORT. The stream primitives bit by bit: what a group read takes, what a group write sets, and the group counts. -/

namespace Sys2Proof.Machine

theorem sbit_eq (m : Memory) (n p : Nat) : sbit m n p = (decide (p < 8 * n) && dbit m p) := by
  unfold sbit
  split <;> simp_all

theorem sbit_of_lt (m : Memory) {n p : Nat} (h : p < 8 * n) : sbit m n p = dbit m p := by simp [sbit_eq, h]

theorem sbit_of_le (m : Memory) {n p : Nat} (h : 8 * n ≤ p) : sbit m n p = false := by
  simp [sbit_eq, Nat.not_lt.mpr h]

/-- A byte is known by its eight stream bits. -/
theorem getLsbD_data (m : Memory) (a : Nat) {k : Nat} (h : k < 8) : (m.data a).getLsbD k = dbit m (8 * a + (7 - k)) := by
  unfold dbit
  rw [show (8 * a + (7 - k)) / 8 = a by omega, show 7 - (8 * a + (7 - k)) % 8 = k by omega]

/-- Two RAMs with the same stream bits in a byte have that byte in common. -/
theorem data_eq_of_dbit {m₁ m₂ : Memory} {a : Nat} (h : ∀ p, p / 8 = a → dbit m₁ p = dbit m₂ p) :
    m₁.data a = m₂.data a := by
  apply BitVec.eq_of_getLsbD_eq
  intro k hk
  rw [getLsbD_data _ _ hk, getLsbD_data _ _ hk]
  exact h _ (by omega)

theorem dbit_congr {m₁ m₂ : Memory} {p : Nat} (h : m₁.data (p / 8) = m₂.data (p / 8)) : dbit m₁ p = dbit m₂ p := by
  simp [dbit, h]

theorem sbit_congr {m₁ m₂ : Memory} {n : Nat} (h : ∀ a < n, m₁.data a = m₂.data a) (p : Nat) :
    sbit m₁ n p = sbit m₂ n p := by
  by_cases hp : p < 8 * n
  · rw [sbit_of_lt _ hp, sbit_of_lt _ hp]
    exact dbit_congr (h _ (by omega))
  · rw [sbit_of_le _ (by omega), sbit_of_le _ (by omega)]

theorem dbit_zeroData (m : Memory) (n p : Nat) : dbit (m.zeroData n) p = (decide (8 * n ≤ p) && dbit m p) := by
  unfold dbit
  rw [Memory.data_zeroData]
  by_cases h : p / 8 < n
  · have h2 : ¬(8 * n ≤ p) := by omega
    simp [h, h2]
  · have h2 : 8 * n ≤ p := by omega
    simp [h, h2]

/-! ## Reading groups -/

theorem takeBits_lt (f : Nat → Bool) (pos k : Nat) : takeBits f pos k < 2 ^ k := by
  induction k with
  | zero => simp [takeBits]
  | succ k ih =>
    have := Bool.toNat_le (f (pos + k))
    simp only [takeBits, Nat.pow_succ]
    omega

/-- The bits of a value read from a stream: the first read is the most significant. -/
theorem testBit_takeBits (f : Nat → Bool) (pos k j : Nat) :
    (takeBits f pos k).testBit j = (decide (j < k) && f (pos + (k - 1 - j))) := by
  induction k generalizing j with
  | zero => simp [takeBits]
  | succ k ih =>
    simp only [takeBits]
    cases j with
    | zero =>
      rw [Nat.testBit_zero]
      cases hf : f (pos + k) <;> simp [hf]
    | succ j =>
      rw [Nat.testBit_succ, show (2 * takeBits f pos k + (f (pos + k)).toNat) / 2 = takeBits f pos k by
        have := Bool.toNat_le (f (pos + k)); omega, ih]
      by_cases h : j < k
      · simp [h, show k - (j + 1) = k - 1 - j by omega]
      · simp [h]

theorem takeBits_congr {f g : Nat → Bool} {pos k : Nat} (h : ∀ j < k, f (pos + j) = g (pos + j)) :
    takeBits f pos k = takeBits g pos k := by
  induction k with
  | zero => rfl
  | succ k ih => simp [takeBits, ih fun j hj => h j (by omega), h k (by omega)]

/-- Bit `j` of a group read (spec/40_bitpacker.md R101). -/
theorem getLsbD_rgroup (m : Memory) (n i j : Nat) :
    (rgroup m n i).getLsbD j = (decide (j < 11) && sbit m n (11 * i + (10 - j))) := by
  unfold rgroup
  rw [BitVec.getLsbD_ofNat, testBit_takeBits]
  by_cases h : j < 11
  · simp [h, show j < 16 by omega, Config.width]
  · simp [h, Config.width]

theorem rgroup_toNat_lt (m : Memory) (n i : Nat) : (rgroup m n i).toNat < 2048 := by
  have := takeBits_lt (sbit m n) (Config.width * i) Config.width
  unfold rgroup
  rw [BitVec.toNat_ofNat]
  exact Nat.lt_of_le_of_lt (Nat.mod_le _ _) this

theorem rgroup_congr {m₁ m₂ : Memory} {n : Nat} (h : ∀ a < n, m₁.data a = m₂.data a) (i : Nat) :
    rgroup m₁ n i = rgroup m₂ n i := by
  unfold rgroup
  rw [takeBits_congr fun j _ => sbit_congr h _]

@[simp] theorem length_readGroups (m : Memory) (n cnt : Nat) : (readGroups m n cnt).length = cnt := by
  simp [readGroups]

theorem getD_readGroups (m : Memory) (n : Nat) {cnt i : Nat} (h : i < cnt) (d : Entry) :
    (readGroups m n cnt).getD i d = rgroup m n i := by
  simp [readGroups, List.getD_eq_getElem?_getD, h]

theorem readGroups_congr {m₁ m₂ : Memory} {n : Nat} (h : ∀ a < n, m₁.data a = m₂.data a) (cnt : Nat) :
    readGroups m₁ n cnt = readGroups m₂ n cnt :=
  List.map_congr_left fun i _ => rgroup_congr h i

/-! ## Writing groups -/

theorem getLsbD_one_shift (k j : Nat) (hk : k < 8) : ((1#8 : Byte) <<< k).getLsbD j = decide (j = k) := by
  rw [BitVec.getLsbD_shiftLeft, BitVec.getLsbD_one]
  by_cases h : j = k
  · simp [h, hk]
  · by_cases h1 : j < k
    · simp [h, h1]
    · by_cases h2 : j < 8
      · simp [h, h1, h2]; omega
      · simp [h, h2]

theorem dbit_orBit (m : Memory) (q p : Nat) : dbit (orBit m q) p = (decide (p = q) || dbit m p) := by
  unfold dbit orBit
  rw [Memory.data_setData]
  by_cases h : p / 8 = q / 8
  · rw [if_pos h, BitVec.getLsbD_or, getLsbD_one_shift _ _ (by omega), ← h]
    by_cases h2 : p = q
    · simp [h2]
    · have : 7 - p % 8 ≠ 7 - q % 8 := by omega
      simp [h2, this]
  · have h2 : p ≠ q := fun e => h (by rw [e])
    simp [h, h2]

theorem read_orBit_other (m : Memory) (q a : Nat) (h : a ≠ dataBase + q / 8) : (orBit m q).read a = m.read a := by
  unfold orBit
  rw [Memory.read_setData, if_neg h]

theorem dbit_putBits (m : Memory) (pos : Nat) (v : Entry) (k p : Nat) : dbit (putBits m pos v k) p =
    ((decide (pos ≤ p) && decide (p < pos + k) && v.getLsbD (10 - (p - pos))) || dbit m p) := by
  induction k with
  | zero =>
    by_cases h : pos ≤ p
    · simp [putBits, Nat.not_lt.mpr h]
    · simp [putBits, h]
  | succ k ih =>
    simp only [putBits]
    by_cases hp : p = pos + k
    · subst hp
      split
      · rename_i hv
        simp [dbit_orBit, hv]
      · rename_i hv
        simp [ih, hv]
    · have h1 : (decide (p < pos + (k + 1)) : Bool) = decide (p < pos + k) := by
        rw [decide_eq_decide]; omega
      split
      · rw [dbit_orBit, ih, h1]
        simp [hp]
      · rw [ih, h1]

theorem read_putBits_other (m : Memory) (pos : Nat) (v : Entry) (k a : Nat)
    (h : ∀ j < k, a ≠ dataBase + (pos + j) / 8) : (putBits m pos v k).read a = m.read a := by
  induction k with
  | zero => rfl
  | succ k ih =>
    simp only [putBits]
    have ih' := ih fun j hj => h j (by omega)
    split
    · rw [read_orBit_other _ _ _ (h k (by omega)), ih']
    · exact ih'

/-- A bit of the value that a group write stores (spec/40_bitpacker.md R104): the entry masked to 11 bits. -/
theorem getLsbD_masked (e : Entry) {j : Nat} (h : j < 11) : (e &&& 0x7FF#16).getLsbD j = e.getLsbD j := by
  rw [BitVec.getLsbD_and]
  have : (0x7FF#16).getLsbD j = true := by interval_cases j <;> rfl
  simp [this]

theorem dbit_wgroup (m : Memory) (i : Nat) (e : Entry) (p : Nat) : dbit (wgroup m i e) p =
    ((decide (p / 11 = i) && e.getLsbD (10 - p % 11)) || dbit m p) := by
  unfold wgroup
  rw [dbit_putBits]
  by_cases h : p / 11 = i
  · have h1 : Config.width * i ≤ p := by simp only [Config.width]; omega
    have h2 : p < Config.width * i + Config.width := by simp only [Config.width]; omega
    have h3 : p - Config.width * i = p % 11 := by simp only [Config.width]; omega
    simp only [h1, h2, h3, h, decide_true, Bool.true_and]
    rw [getLsbD_masked _ (by omega)]
  · have h2 : ¬(Config.width * i ≤ p ∧ p < Config.width * i + Config.width) := by
      simp only [Config.width]; omega
    by_cases h1 : Config.width * i ≤ p
    · simp [h, show ¬(p < Config.width * i + Config.width) from fun h3 => h2 ⟨h1, h3⟩]
    · simp [h, h1]

theorem read_wgroup_other (m : Memory) (i : Nat) (e : Entry) (a : Nat)
    (h : ∀ p, p / 11 = i → a ≠ dataBase + p / 8) : (wgroup m i e).read a = m.read a := by
  refine read_putBits_other m _ _ _ _ fun j hj => h _ ?_
  simp only [Config.width] at hj ⊢
  omega

/-- A stream bit after a write of groups (spec/40_bitpacker.md R104): the old bit, ORed with the bit of the group that
covers it. -/
theorem dbit_writeGroups (es : List Entry) : ∀ (m : Memory) (i p : Nat), dbit (writeGroups m i es) p =
    ((decide (i ≤ p / 11) && decide (p / 11 < i + es.length) && (es.getD (p / 11 - i) 0x0000#16).getLsbD (10 - p % 11)) ||
      dbit m p) := by
  induction es with
  | nil =>
    intro m i p
    by_cases h : i ≤ p / 11
    · simp [writeGroups, Nat.not_lt.mpr h]
    · simp [writeGroups, h]
  | cons e es ih =>
    intro m i p
    simp only [writeGroups, List.length_cons]
    rw [ih, dbit_wgroup]
    by_cases h : p / 11 = i
    · subst h
      simp
    · by_cases h2 : i + 1 ≤ p / 11
      · have h3 : i ≤ p / 11 := by omega
        have h4 : decide (p / 11 < i + (es.length + 1)) = decide (p / 11 < i + 1 + es.length) := by
          rw [decide_eq_decide]; omega
        rw [show p / 11 - i = (p / 11 - (i + 1)) + 1 by omega, List.getD_cons_succ, h4]
        simp [h, h2, h3]
      · have h3 : ¬(i ≤ p / 11) := by omega
        simp [h, h2, h3]

theorem read_writeGroups_other (es : List Entry) : ∀ (m : Memory) (i a : Nat),
    (∀ p, i ≤ p / 11 → p / 11 < i + es.length → a ≠ dataBase + p / 8) → (writeGroups m i es).read a = m.read a := by
  induction es with
  | nil => intro m i a _; rfl
  | cons e es ih =>
    intro m i a h
    simp only [List.length_cons] at h
    simp only [writeGroups]
    rw [ih _ _ _ fun p h1 h2 => h p (by omega) (by omega), read_wgroup_other]
    intro p hp
    exact h p (by omega) (by omega)

/-- A write of groups that fits `n` bytes leaves every byte outside `DATA[0..n)`. -/
theorem read_writeGroups_outside {es : List Entry} {n : Nat} (hfit : 11 * es.length ≤ 8 * n) (m : Memory) (a : Nat)
    (h : ¬(dataBase ≤ a ∧ a < dataBase + n)) : (writeGroups m 0 es).read a = m.read a := by
  refine read_writeGroups_other es m 0 a fun p _ hp he => h ?_
  omega

theorem word_writeGroups {es : List Entry} {n : Nat} (hfit : 11 * es.length ≤ 8 * n) (hn : n ≤ 1056) (m : Memory)
    (j : Nat) : (writeGroups m 0 es).word j = m.word j := by
  unfold Memory.word
  rw [read_writeGroups_outside hfit, read_writeGroups_outside hfit] <;> (unfold dataBase wordBase; omega)

theorem Memory.wf_orBit {m : Memory} {p : Nat} (h : m.wf = true) (hp : p < 8448) : (orBit m p).wf = true :=
  Memory.wf_setData h (by omega)

theorem Memory.wf_putBits {m : Memory} {pos k : Nat} {v : Entry} (h : m.wf = true) (hp : pos + k ≤ 8448) :
    (putBits m pos v k).wf = true := by
  induction k with
  | zero => exact h
  | succ k ih =>
    have ih' := ih (by omega)
    simp only [putBits]
    split
    · exact Memory.wf_orBit ih' (by omega)
    · exact ih'

theorem Memory.wf_writeGroups (es : List Entry) : ∀ {m : Memory} {i : Nat}, m.wf = true → i + es.length ≤ 768 →
    (writeGroups m i es).wf = true := by
  induction es with
  | nil => intro m i h _; exact h
  | cons e es ih =>
    intro m i h hi
    simp only [List.length_cons] at hi
    refine ih (Memory.wf_putBits h ?_) (by omega)
    simp only [Config.width]
    omega

/-! ## Group counts -/

theorem groupCount_eq (n : Nat) : groupCount n = (8 * n + 10) / 11 := rfl

theorem fullCount_eq (n : Nat) : fullCount n = 8 * n / 11 := rfl

theorem groupCount_le {n : Nat} (h : n ≤ 1056) : groupCount n ≤ 768 := by rw [groupCount_eq]; omega

theorem fullCount_le {n : Nat} (h : n ≤ 1056) : fullCount n ≤ 768 := by rw [fullCount_eq]; omega

theorem fits_iff (cnt n : Nat) : fits cnt n = true ↔ 11 * cnt ≤ 8 * n := by simp [fits]

end Sys2Proof.Machine
end

