-- ==== Sys2Proof/Laws/Checksum.lean ====
section
/-! SUPPORT. The sizes of the checksum, its bytes, and what the comparison of an extension with DATA says. -/

namespace Sys2Proof.Machine

theorem cksumBytes_eq (l : Nat) : cksumBytes l = (l / 4 + 7) / 8 := rfl

theorem cksumBytes_le {l : Nat} (h : l ≤ 1024) : cksumBytes l ≤ 32 := by rw [cksumBytes_eq]; omega

@[simp] theorem length_cks (m : Memory) (l : Nat) : (cks m l).length = cksumBytes l := by simp [cks]

theorem getD_cks (m : Memory) (l : Nat) {j : Nat} (h : j < cksumBytes l) (d : Byte) :
    (cks m l).getD j d = cksumByte (sha256 (m.dataBytes l)) l j := by
  simp [cks, List.getD_eq_getElem?_getD, h]

@[simp] theorem length_extension (m : Memory) (l : Nat) : (extension m l).length = l + cksumBytes l := by
  simp [extension]

/-- The checksum depends only on the entropy. -/
theorem cks_congr {m₁ m₂ : Memory} {l : Nat} (h : ∀ a < l, m₁.data a = m₂.data a) : cks m₁ l = cks m₂ l := by
  unfold cks
  rw [Memory.dataBytes_congr h]

/-- The comparison of an extension says that the length is right and the checksum bytes are (the entropy is compared
with itself). -/
theorem extensionMatches_iff (m : Memory) (l n : Nat) : extensionMatches m l n = true ↔
    l + cksumBytes l = n ∧ ∀ j < cksumBytes l, cksumByte (sha256 (m.dataBytes l)) l j = m.data (l + j) := by
  simp only [extensionMatches, Bool.and_eq_true, decide_eq_true_eq, length_extension]
  refine and_congr_right fun hn => ?_
  subst hn
  have hsplit : m.dataBytes (l + cksumBytes l) =
      m.dataBytes l ++ (List.range (cksumBytes l)).map fun j => m.data (l + j) := by
    simp [Memory.dataBytes, List.range_add, Function.comp_def]
  rw [hsplit, extension, List.append_cancel_left_eq, cks, List.map_inj_left]
  simp

theorem entLenError_none_iff (l : Nat) : entLenError l = none ↔ l % 4 = 0 ∧ l ≤ 1024 := by
  unfold entLenError Config.entAlign Config.entMax
  by_cases h : l % 4 = 0
  · by_cases h2 : l > 1024
    · simp [h, h2]
    · simp [h, h2]; omega
  · simp [h]

theorem entLenError_align {l : Nat} (h : l % 4 ≠ 0) : entLenError l = some .invalidEntropyLength := by
  simp [entLenError, Config.entAlign, h]

theorem entLenError_range {l : Nat} (h : l % 4 = 0) (h2 : 1024 < l) : entLenError l = some .lengthRange := by
  simp [entLenError, Config.entAlign, Config.entMax, h, h2]

theorem Memory.wf_appended {m : Memory} {l : Nat} (h : m.wf = true) (hl : l ≤ 1024) :
    (m.writeData l (cks m l)).wf = true :=
  Memory.wf_writeData _ h (by rw [length_cks, cksumBytes_eq]; omega)

/-! ## The checksum bit by bit -/

/-- Bit `b` of a digest, its most significant bit 0, stands in byte `b / 8`. -/
theorem getLsbD_digestByte (h : Digest) {b : Nat} (hb : b < 256) :
    (digestByte h (b / 8)).getLsbD (7 - b % 8) = h.getMsbD b := by
  unfold digestByte
  rw [BitVec.getLsbD_extractLsb', BitVec.getMsbD_eq_getLsbD]
  simp [hb, show 7 - b % 8 < 8 by omega, show 8 * (31 - b / 8) + (7 - b % 8) = 255 - b by omega]

theorem getLsbD_cksumMask_part {r k : Nat} (hr : r < 8) (h0 : r ≠ 0) (hk : k < 8) :
    (0xFF#8 <<< (8 - r)).getLsbD k = decide (8 - r ≤ k) := by
  interval_cases r <;> first | omega | (interval_cases k <;> decide)

/-- A bit of a masked checksum byte is a digest bit among the first `k`, and zero after them. -/
theorem getLsbD_cksumByte (h : Digest) {l j k : Nat} (hj : j < cksumBytes l) (hk : k < 8) :
    (cksumByte h l j).getLsbD k = (decide (8 * j + (7 - k) < cksumBits l) && (digestByte h j).getLsbD k) := by
  unfold cksumByte
  have hC : cksumBytes l = (cksumBits l + 7) / 8 := rfl
  split
  · rename_i hj1
    rw [BitVec.getLsbD_and]
    unfold cksumMask
    split
    · have : (0xFF#8).getLsbD k = true := by interval_cases k <;> rfl
      rw [this, Bool.and_true]
      have : 8 * j + (7 - k) < cksumBits l := by omega
      simp [this]
    · rename_i h0
      rw [getLsbD_cksumMask_part (by omega) h0 hk]
      have : decide (8 - cksumBits l % 8 ≤ k) = decide (8 * j + (7 - k) < cksumBits l) := by
        rw [decide_eq_decide]; omega
      rw [this, Bool.and_comm]
  · have : 8 * j + (7 - k) < cksumBits l := by omega
    simp [this]

/-- The stream bits that APPEND and ENCODE write after the entropy. -/
theorem dbit_appended (m : Memory) {l p : Nat} (h1 : 8 * l ≤ p) (h2 : p < 8 * (l + cksumBytes l)) :
    dbit (m.writeData l (cks m l)) p = (decide (p - 8 * l < cksumBits l) &&
      (digestByte (sha256 (m.dataBytes l)) (p / 8 - l)).getLsbD (7 - p % 8)) := by
  unfold dbit
  rw [Memory.data_writeData, length_cks, if_pos ⟨by omega, by omega⟩, getD_cks _ _ (by omega),
    getLsbD_cksumByte _ (by omega) (by omega)]
  congr 2
  rw [eq_iff_iff]
  omega

end Sys2Proof.Machine
end

