-- ==== Sys2Proof/Laws/State.lean ====
section
/-! SUPPORT. One lemma per field per update of the state, each true by definition. -/

namespace Sys2Proof.Machine

@[simp] theorem raiseError_ctrl (s : State) (code : ErrCode) : (raiseError code s).ctrl = s.ctrl := rfl
@[simp] theorem raiseError_status (s : State) (code : ErrCode) : (raiseError code s).status = s.status.failed code := rfl
@[simp] theorem raiseError_entLen (s : State) (code : ErrCode) : (raiseError code s).entLen = s.entLen := rfl
@[simp] theorem raiseError_extLen (s : State) (code : ErrCode) : (raiseError code s).extLen = s.extLen := rfl
@[simp] theorem raiseError_wcount (s : State) (code : ErrCode) : (raiseError code s).wcount = s.wcount := rfl
@[simp] theorem raiseError_wfull (s : State) (code : ErrCode) : (raiseError code s).wfull = s.wfull := rfl
@[simp] theorem raiseError_result (s : State) (code : ErrCode) : (raiseError code s).result = s.result := rfl
@[simp] theorem raiseError_mem (s : State) (code : ErrCode) : (raiseError code s).mem = s.mem := rfl
@[simp] theorem raiseError_lcmd (s : State) (code : ErrCode) : (raiseError code s).lcmd = s.lcmd := rfl
@[simp] theorem raiseError_lev (s : State) (code : ErrCode) : (raiseError code s).lev = s.lev := rfl
@[simp] theorem raiseError_env (s : State) (code : ErrCode) : (raiseError code s).env = s.env := rfl

@[simp] theorem accept_ctrl (s : State) (v : Word) : (accept s v).ctrl = s.ctrl := rfl
@[simp] theorem accept_status (s : State) (v : Word) : (accept s v).status = { s.status with busy := true } := rfl
@[simp] theorem accept_entLen (s : State) (v : Word) : (accept s v).entLen = s.entLen := rfl
@[simp] theorem accept_extLen (s : State) (v : Word) : (accept s v).extLen = s.extLen := rfl
@[simp] theorem accept_wcount (s : State) (v : Word) : (accept s v).wcount = s.wcount := rfl
@[simp] theorem accept_wfull (s : State) (v : Word) : (accept s v).wfull = s.wfull := rfl
@[simp] theorem accept_result (s : State) (v : Word) : (accept s v).result = s.result := rfl
@[simp] theorem accept_mem (s : State) (v : Word) : (accept s v).mem = s.mem := rfl
@[simp] theorem accept_lcmd (s : State) (v : Word) : (accept s v).lcmd = v := rfl
@[simp] theorem accept_lev (s : State) (v : Word) : (accept s v).lev = s.ctrl.emptyValid := rfl
@[simp] theorem accept_env (s : State) (v : Word) : (accept s v).env = s.env := rfl

@[simp] theorem dropWrite_ctrl (s : State) : (dropWrite s).ctrl = s.ctrl := rfl
@[simp] theorem dropWrite_status (s : State) : (dropWrite s).status = { s.status with ovr := true } := rfl
@[simp] theorem dropWrite_entLen (s : State) : (dropWrite s).entLen = s.entLen := rfl
@[simp] theorem dropWrite_extLen (s : State) : (dropWrite s).extLen = s.extLen := rfl
@[simp] theorem dropWrite_wcount (s : State) : (dropWrite s).wcount = s.wcount := rfl
@[simp] theorem dropWrite_wfull (s : State) : (dropWrite s).wfull = s.wfull := rfl
@[simp] theorem dropWrite_result (s : State) : (dropWrite s).result = s.result := rfl
@[simp] theorem dropWrite_mem (s : State) : (dropWrite s).mem = s.mem := rfl
@[simp] theorem dropWrite_lcmd (s : State) : (dropWrite s).lcmd = s.lcmd := rfl
@[simp] theorem dropWrite_lev (s : State) : (dropWrite s).lev = s.lev := rfl
@[simp] theorem dropWrite_env (s : State) : (dropWrite s).env = s.env := rfl

@[simp] theorem State.popTurn_ctrl (s : State) : (s.popTurn).ctrl = s.ctrl := rfl
@[simp] theorem State.popTurn_status (s : State) : (s.popTurn).status = s.status := rfl
@[simp] theorem State.popTurn_entLen (s : State) : (s.popTurn).entLen = s.entLen := rfl
@[simp] theorem State.popTurn_extLen (s : State) : (s.popTurn).extLen = s.extLen := rfl
@[simp] theorem State.popTurn_wcount (s : State) : (s.popTurn).wcount = s.wcount := rfl
@[simp] theorem State.popTurn_wfull (s : State) : (s.popTurn).wfull = s.wfull := rfl
@[simp] theorem State.popTurn_result (s : State) : (s.popTurn).result = s.result := rfl
@[simp] theorem State.popTurn_mem (s : State) : (s.popTurn).mem = s.mem := rfl
@[simp] theorem State.popTurn_lcmd (s : State) : (s.popTurn).lcmd = s.lcmd := rfl
@[simp] theorem State.popTurn_lev (s : State) : (s.popTurn).lev = s.lev := rfl
@[simp] theorem State.popTurn_env (s : State) : (s.popTurn).env = { s.env with turns := s.env.turns.tail } := rfl

@[simp] theorem State.withScript_ctrl (s : State) (ops : List HostOp) : (s.withScript ops).ctrl = s.ctrl := rfl
@[simp] theorem State.withScript_status (s : State) (ops : List HostOp) : (s.withScript ops).status = s.status := rfl
@[simp] theorem State.withScript_entLen (s : State) (ops : List HostOp) : (s.withScript ops).entLen = s.entLen := rfl
@[simp] theorem State.withScript_extLen (s : State) (ops : List HostOp) : (s.withScript ops).extLen = s.extLen := rfl
@[simp] theorem State.withScript_wcount (s : State) (ops : List HostOp) : (s.withScript ops).wcount = s.wcount := rfl
@[simp] theorem State.withScript_wfull (s : State) (ops : List HostOp) : (s.withScript ops).wfull = s.wfull := rfl
@[simp] theorem State.withScript_result (s : State) (ops : List HostOp) : (s.withScript ops).result = s.result := rfl
@[simp] theorem State.withScript_mem (s : State) (ops : List HostOp) : (s.withScript ops).mem = s.mem := rfl
@[simp] theorem State.withScript_lcmd (s : State) (ops : List HostOp) : (s.withScript ops).lcmd = s.lcmd := rfl
@[simp] theorem State.withScript_lev (s : State) (ops : List HostOp) : (s.withScript ops).lev = s.lev := rfl
@[simp] theorem State.withScript_env (s : State) (ops : List HostOp) : (s.withScript ops).env = { s.env with script := ops } := rfl

@[simp] theorem hostRead_ctrl (s : State) (off : Offset) : (hostRead s off).ctrl = s.ctrl := rfl
@[simp] theorem hostRead_status (s : State) (off : Offset) : (hostRead s off).status = s.status := rfl
@[simp] theorem hostRead_entLen (s : State) (off : Offset) : (hostRead s off).entLen = s.entLen := rfl
@[simp] theorem hostRead_extLen (s : State) (off : Offset) : (hostRead s off).extLen = s.extLen := rfl
@[simp] theorem hostRead_wcount (s : State) (off : Offset) : (hostRead s off).wcount = s.wcount := rfl
@[simp] theorem hostRead_wfull (s : State) (off : Offset) : (hostRead s off).wfull = s.wfull := rfl
@[simp] theorem hostRead_result (s : State) (off : Offset) : (hostRead s off).result = s.result := rfl
@[simp] theorem hostRead_mem (s : State) (off : Offset) : (hostRead s off).mem = s.mem := rfl
@[simp] theorem hostRead_lcmd (s : State) (off : Offset) : (hostRead s off).lcmd = s.lcmd := rfl
@[simp] theorem hostRead_lev (s : State) (off : Offset) : (hostRead s off).lev = s.lev := rfl
@[simp] theorem hostRead_env (s : State) (off : Offset) : (hostRead s off).env = { s.env with replies := .read (readData s off) (busResp off) :: s.env.replies, reads := s.env.reads + 1 } := rfl

@[simp] theorem hostWrite_ctrl (s : State) (off : Offset) (v : Word) : (hostWrite s off v).ctrl = (busWrite s off v).ctrl := rfl
@[simp] theorem hostWrite_status (s : State) (off : Offset) (v : Word) : (hostWrite s off v).status = (busWrite s off v).status := rfl
@[simp] theorem hostWrite_entLen (s : State) (off : Offset) (v : Word) : (hostWrite s off v).entLen = (busWrite s off v).entLen := rfl
@[simp] theorem hostWrite_extLen (s : State) (off : Offset) (v : Word) : (hostWrite s off v).extLen = (busWrite s off v).extLen := rfl
@[simp] theorem hostWrite_wcount (s : State) (off : Offset) (v : Word) : (hostWrite s off v).wcount = (busWrite s off v).wcount := rfl
@[simp] theorem hostWrite_wfull (s : State) (off : Offset) (v : Word) : (hostWrite s off v).wfull = (busWrite s off v).wfull := rfl
@[simp] theorem hostWrite_result (s : State) (off : Offset) (v : Word) : (hostWrite s off v).result = (busWrite s off v).result := rfl
@[simp] theorem hostWrite_mem (s : State) (off : Offset) (v : Word) : (hostWrite s off v).mem = (busWrite s off v).mem := rfl
@[simp] theorem hostWrite_lcmd (s : State) (off : Offset) (v : Word) : (hostWrite s off v).lcmd = (busWrite s off v).lcmd := rfl
@[simp] theorem hostWrite_lev (s : State) (off : Offset) (v : Word) : (hostWrite s off v).lev = (busWrite s off v).lev := rfl
@[simp] theorem hostWrite_env (s : State) (off : Offset) (v : Word) : (hostWrite s off v).env = { (busWrite s off v).env with replies := .write (busResp off) :: (busWrite s off v).env.replies } := rfl

@[simp] theorem blockReset_ctrl (s : State) : (blockReset s).ctrl = State.reset.ctrl := rfl
@[simp] theorem blockReset_status (s : State) : (blockReset s).status = State.reset.status := rfl
@[simp] theorem blockReset_entLen (s : State) : (blockReset s).entLen = State.reset.entLen := rfl
@[simp] theorem blockReset_extLen (s : State) : (blockReset s).extLen = State.reset.extLen := rfl
@[simp] theorem blockReset_wcount (s : State) : (blockReset s).wcount = State.reset.wcount := rfl
@[simp] theorem blockReset_wfull (s : State) : (blockReset s).wfull = State.reset.wfull := rfl
@[simp] theorem blockReset_result (s : State) : (blockReset s).result = State.reset.result := rfl
@[simp] theorem blockReset_mem (s : State) : (blockReset s).mem = s.mem.afterReset := rfl
@[simp] theorem blockReset_lcmd (s : State) : (blockReset s).lcmd = State.reset.lcmd := rfl
@[simp] theorem blockReset_lev (s : State) : (blockReset s).lev = State.reset.lev := rfl
@[simp] theorem blockReset_env (s : State) : (blockReset s).env = s.env := rfl

@[simp] theorem Status.completed_busy (st : Status) : st.completed.busy = false := rfl
@[simp] theorem Status.completed_done (st : Status) : st.completed.done = true := rfl
@[simp] theorem Status.completed_err (st : Status) : st.completed.err = st.err := rfl
@[simp] theorem Status.completed_ovr (st : Status) : st.completed.ovr = st.ovr := rfl
@[simp] theorem Status.completed_errcode (st : Status) : st.completed.errcode = .noError := rfl

@[simp] theorem Status.failed_busy (st : Status) (code : ErrCode) : (st.failed code).busy = false := rfl
@[simp] theorem Status.failed_done (st : Status) (code : ErrCode) : (st.failed code).done = true := rfl
@[simp] theorem Status.failed_err (st : Status) (code : ErrCode) : (st.failed code).err = true := rfl
@[simp] theorem Status.failed_ovr (st : Status) (code : ErrCode) : (st.failed code).ovr = st.ovr := rfl
@[simp] theorem Status.failed_errcode (st : Status) (code : ErrCode) : (st.failed code).errcode = code := rfl

@[simp] theorem writeStatus_busy (st : Status) (v : Word) : (writeStatus st v).busy = st.busy := rfl
@[simp] theorem writeStatus_done (st : Status) (v : Word) : (writeStatus st v).done = (st.done && !v.getLsbD 1) := rfl
@[simp] theorem writeStatus_err (st : Status) (v : Word) : (writeStatus st v).err = (st.err && !v.getLsbD 2) := rfl
@[simp] theorem writeStatus_ovr (st : Status) (v : Word) : (writeStatus st v).ovr = (st.ovr && !v.getLsbD 3) := rfl
@[simp] theorem writeStatus_errcode (st : Status) (v : Word) : (writeStatus st v).errcode = st.errcode := rfl

@[simp] theorem Memory.afterReset_cells (m : Memory) : m.afterReset.cells = [] := rfl
@[simp] theorem Memory.afterReset_epoch (m : Memory) : m.afterReset.epoch = m.epoch + 1 := rfl

end Sys2Proof.Machine
end

