-- ==== Sys2Proof/Laws/Commands.lean ====
section
/-! SUPPORT. What each command's rule and each completion can do, said once. -/

namespace Sys2Proof.Machine

@[simp] theorem complete_ok (s t : State) : complete s (.ok t) = .next { t with status := t.status.completed } := rfl

@[simp] theorem complete_error (s : State) (code : ErrCode) : complete s (.error code) = .next (raiseError code s) := rfl

/-- A completion always gives a next state: the one its rule leaves, or the error's. -/
theorem complete_cases (s : State) (r : Except ErrCode State) :
    (∃ t, r = .ok t ∧ complete s r = .next { t with status := t.status.completed }) ∨
    (∃ code, r = .error code ∧ complete s r = .next (raiseError code s)) := by
  cases r with
  | ok t => exact .inl ⟨t, rfl, rfl⟩
  | error code => exact .inr ⟨code, rfl, rfl⟩

/-- What a completion answers, read backwards. -/
theorem complete_ok_next {s t u : State} {r : Except ErrCode State} (hr : r = .ok u) (h : complete s r = .next t) :
    t = { u with status := u.status.completed } := by
  subst hr
  injection h with h
  exact h.symm

/-- See `complete_ok_next`. -/
theorem complete_error_next {s t : State} {code : ErrCode} {r : Except ErrCode State} (hr : r = .error code)
    (h : complete s r = .next t) : t = raiseError code s := by
  subst hr
  injection h with h
  exact h.symm

/-! ## The values of the length and count registers -/

theorem toNat_extLenOf {n : Nat} (h : n ≤ 1056) : (extLenOf n).toNat = n := by
  unfold extLenOf
  rw [BitVec.toNat_ofNat, Nat.mod_eq_of_lt (by omega)]

theorem toNat_entLenOf {n : Nat} (h : n ≤ 1056) : (entLenOf n).toNat = n := by
  unfold entLenOf
  rw [BitVec.toNat_ofNat, Nat.mod_eq_of_lt (by omega)]

theorem toNat_countOf {n : Nat} (h : n ≤ 768) : (countOf n).toNat = n := by
  unfold countOf
  rw [BitVec.toNat_ofNat, Nat.mod_eq_of_lt (by omega)]

/-! ## APPEND and ENCODE -/

/-- The state APPEND leaves before its completion. -/
def appended (s : State) : State :=
  { s with mem := s.mem.writeData s.opL (cks s.mem s.opL), extLen := extLenOf (s.opL + cksumBytes s.opL) }

theorem appendRule_cases (s : State) :
    (s.opL % 4 = 0 ∧ s.opL ≤ 1024 ∧ appendRule s = .ok (appended s)) ∨
    (s.opL % 4 ≠ 0 ∧ appendRule s = .error .invalidEntropyLength) ∨
    (s.opL % 4 = 0 ∧ 1024 < s.opL ∧ appendRule s = .error .lengthRange) := by
  by_cases h : s.opL % 4 = 0
  · by_cases h2 : s.opL ≤ 1024
    · exact .inl ⟨h, h2, by simp [appendRule, (entLenError_none_iff _).2 ⟨h, h2⟩, appended]⟩
    · exact .inr (.inr ⟨h, by omega, by simp [appendRule, entLenError_range h (by omega)]⟩)
  · exact .inr (.inl ⟨h, by simp [appendRule, entLenError_align h]⟩)

theorem encodeRule_cases (s : State) :
    (s.opL % 4 = 0 ∧ s.opL ≤ 1024 ∧ encodeRule s = .ok (encodeWrites s s.opL)) ∨
    (s.opL % 4 ≠ 0 ∧ encodeRule s = .error .invalidEntropyLength) ∨
    (s.opL % 4 = 0 ∧ 1024 < s.opL ∧ encodeRule s = .error .lengthRange) := by
  by_cases h : s.opL % 4 = 0
  · by_cases h2 : s.opL ≤ 1024
    · exact .inl ⟨h, h2, by simp [encodeRule, (entLenError_none_iff _).2 ⟨h, h2⟩]⟩
    · exact .inr (.inr ⟨h, by omega, by simp [encodeRule, entLenError_range h (by omega)]⟩)
  · exact .inr (.inl ⟨h, by simp [encodeRule, entLenError_align h]⟩)

/-- The complete groups of an extended buffer are three per four bytes of entropy. -/
theorem fullCount_extended {l : Nat} (h : l % 4 = 0) : fullCount (l + cksumBytes l) = 3 * l / 4 := by
  rw [fullCount_eq, cksumBytes_eq]
  omega

theorem length_extended_le {l : Nat} (h : l ≤ 1024) : l + cksumBytes l ≤ 1056 := by
  rw [cksumBytes_eq]
  omega

theorem read_appended_other (s : State) (a : Nat)
    (h : ¬(dataBase + s.opL ≤ a ∧ a < dataBase + s.opL + cksumBytes s.opL)) : (appended s).mem.read a = s.mem.read a := by
  show (s.mem.writeData s.opL (cks s.mem s.opL)).read a = _
  rw [Memory.read_writeData, length_cks, if_neg h]

theorem data_encodeWrites (s : State) (l : Nat) {a : Nat} (h : a < 1056) :
    (encodeWrites s l).mem.data a = (s.mem.writeData l (cks s.mem l)).data a :=
  Memory.data_writeWords _ _ _ _ (by omega)

theorem word_encodeWrites (s : State) {l i : Nat} (h : i < fullCount (l + cksumBytes l)) :
    (encodeWrites s l).mem.word i = rgroup (s.mem.writeData l (cks s.mem l)) (l + cksumBytes l) i := by
  show (Memory.writeWords _ 0 _).word i = _
  rw [Memory.word_writeWords, length_readGroups, if_pos ⟨by omega, by omega⟩, Nat.sub_zero, getD_readGroups _ _ h]

theorem read_encodeWrites_other (s : State) (l a : Nat) (h : ¬(dataBase + l ≤ a ∧ a < dataBase + l + cksumBytes l))
    (h2 : ¬(wordBase ≤ a ∧ a < wordBase + 2 * fullCount (l + cksumBytes l))) :
    (encodeWrites s l).mem.read a = s.mem.read a := by
  refine (Memory.read_writeWords_other _ _ _ _ ?_).trans ?_
  · rw [length_readGroups]
    simpa using h2
  · rw [Memory.read_writeData, length_cks, if_neg h]

/-! ## VERIFY -/

/-- The state VERIFY leaves before its completion. -/
def verified (s : State) : State :=
  { s with result := { s.result with matched := extensionMatches s.mem s.opL s.opN } }

theorem verifyRule_cases (s : State) :
    (s.opL % 4 = 0 ∧ s.opL ≤ 1024 ∧ s.opN ≤ 1056 ∧ verifyRule s = .ok (verified s)) ∨
    (s.opL % 4 ≠ 0 ∧ verifyRule s = .error .invalidEntropyLength) ∨
    (s.opL % 4 = 0 ∧ (1024 < s.opL ∨ 1056 < s.opN) ∧ verifyRule s = .error .lengthRange) := by
  by_cases h : s.opL % 4 = 0
  · by_cases h2 : s.opL ≤ 1024
    · by_cases h3 : s.opN ≤ 1056
      · refine .inl ⟨h, h2, h3, ?_⟩
        simp [verifyRule, (entLenError_none_iff _).2 ⟨h, h2⟩, verified, Config.extMax, Nat.not_lt.mpr h3]
      · refine .inr (.inr ⟨h, by omega, ?_⟩)
        simp [verifyRule, (entLenError_none_iff _).2 ⟨h, h2⟩, Config.extMax, Nat.lt_of_not_le h3]
    · exact .inr (.inr ⟨h, by omega, by simp [verifyRule, entLenError_range h (by omega)]⟩)
  · exact .inr (.inl ⟨h, by simp [verifyRule, entLenError_align h]⟩)

/-! ## UNPACK and PACK -/

/-- The state UNPACK leaves before its completion. -/
def unpacked (s : State) : State :=
  { s with
    mem := s.mem.writeWords 0 (readGroups s.mem s.opN (groupCount s.opN))
    wcount := countOf (groupCount s.opN)
    wfull := countOf (fullCount s.opN) }

theorem unpackRule_cases (s : State) :
    (s.opN ≤ 1056 ∧ unpackRule s = .ok (unpacked s)) ∨ (1056 < s.opN ∧ unpackRule s = .error .lengthRange) := by
  by_cases h : s.opN ≤ 1056
  · exact .inl ⟨h, by simp [unpackRule, unpacked, Config.extMax, Nat.not_lt.mpr h]⟩
  · exact .inr ⟨by omega, by simp [unpackRule, Config.extMax, Nat.lt_of_not_le h]⟩

theorem word_unpacked {s : State} {i : Nat} (h : i < groupCount s.opN) :
    (unpacked s).mem.word i = rgroup s.mem s.opN i := by
  show (s.mem.writeWords 0 _).word i = _
  rw [Memory.word_writeWords, length_readGroups, if_pos ⟨by omega, by omega⟩, Nat.sub_zero, getD_readGroups _ _ h]

theorem data_unpacked (s : State) {a : Nat} (h : a < 1056) : (unpacked s).mem.data a = s.mem.data a :=
  Memory.data_writeWords _ _ _ _ (by omega)

theorem read_unpacked_other (s : State) (a : Nat) (h : ¬(wordBase ≤ a ∧ a < wordBase + 2 * groupCount s.opN)) :
    (unpacked s).mem.read a = s.mem.read a := by
  refine Memory.read_writeWords_other _ _ _ _ ?_
  rw [length_readGroups]
  simpa using h

/-- The RAMs PACK leaves for `n` entries and `N` bytes. -/
def packedMem (z : Bool) (m : Memory) (cnt n : Nat) : Memory :=
  writeGroups (if z then m.zeroData n else m) 0 (m.wordEntries cnt)

theorem packRule_cases (z : Bool) (s : State) :
    (s.opN ≤ 1056 ∧ s.opCount ≤ 768 ∧ 11 * s.opCount ≤ 8 * s.opN ∧
      packRule z s = .ok { s with mem := packedMem z s.mem s.opCount s.opN }) ∨
    ((1056 < s.opN ∨ 768 < s.opCount) ∧ packRule z s = .error .lengthRange) ∨
    (s.opN ≤ 1056 ∧ s.opCount ≤ 768 ∧ 8 * s.opN < 11 * s.opCount ∧ packRule z s = .error .encodingOverflow) := by
  by_cases h : s.opN ≤ 1056
  · by_cases h2 : s.opCount ≤ 768
    · by_cases h3 : 11 * s.opCount ≤ 8 * s.opN
      · refine .inl ⟨h, h2, h3, ?_⟩
        simp [packRule, Config.extMax, Config.wordMax, Nat.not_lt.mpr h, Nat.not_lt.mpr h2, (fits_iff _ _).2 h3, packedMem]
      · refine .inr (.inr ⟨h, h2, by omega, ?_⟩)
        have h4 : ¬(fits s.opCount s.opN = true) := fun e => h3 ((fits_iff _ _).1 e)
        simp [packRule, Config.extMax, Config.wordMax, Nat.not_lt.mpr h, Nat.not_lt.mpr h2, h4]
    · refine .inr (.inl ⟨by omega, ?_⟩)
      simp [packRule, Config.extMax, Config.wordMax, Nat.not_lt.mpr h, Nat.lt_of_not_le h2]
  · exact .inr (.inl ⟨by omega, by simp [packRule, Config.extMax, Nat.lt_of_not_le h]⟩)

/-- The groups PACK and VALIDATE write, bit by bit. -/
theorem dbit_packedMem (z : Bool) (m : Memory) (cnt n p : Nat) : dbit (packedMem z m cnt n) p =
    ((decide (p < 11 * cnt) && (m.word (p / 11)).getLsbD (10 - p % 11)) ||
      ((!z || decide (8 * n ≤ p)) && dbit m p)) := by
  unfold packedMem
  rw [dbit_writeGroups, Memory.length_wordEntries]
  have hz : dbit (if z = true then m.zeroData n else m) p = ((!z || decide (8 * n ≤ p)) && dbit m p) := by
    cases z <;> simp [dbit_zeroData]
  rw [hz]
  by_cases h : p / 11 < cnt
  · have h2 : p < 11 * cnt := by omega
    rw [Nat.sub_zero, Memory.getD_wordEntries _ h]
    simp [h, h2]
  · have h2 : ¬(p < 11 * cnt) := by omega
    simp [h, h2]

theorem read_packedMem_outside (z : Bool) (m : Memory) {cnt n : Nat} (hfit : 11 * cnt ≤ 8 * n) (a : Nat)
    (h : ¬(dataBase ≤ a ∧ a < dataBase + n)) : (packedMem z m cnt n).read a = m.read a := by
  unfold packedMem
  rw [read_writeGroups_outside (by simpa using hfit) _ _ h]
  cases z
  · rfl
  · exact Memory.read_zeroData_other _ _ _ h

theorem Memory.wf_packedMem {z : Bool} {m : Memory} {cnt n : Nat} (h : m.wf = true) (hn : n ≤ 1056) (hc : cnt ≤ 768) :
    (packedMem z m cnt n).wf = true := by
  refine Memory.wf_writeGroups _ ?_ (by simpa using hc)
  cases z
  · exact h
  · exact Memory.wf_zeroData h hn

/-! ## VALIDATE -/

theorem bufferBytes_eq (n : Nat) : bufferBytes n = (11 * n + 7) / 8 := rfl

theorem entropyBytes_eq (n : Nat) : entropyBytes n = 11 * n * 32 / 33 / 8 := rfl

/-- The sizes of the pack step (spec/42_mnemonic.md R143). -/
theorem validate_sizes {n : Nat} (h3 : n % 3 = 0) (h : n ≤ 768) :
    entropyBytes n = 4 * (n / 3) ∧ entropyBytes n ≤ 1024 ∧ bufferBytes n ≤ 1056 ∧
      entropyBytes n + cksumBytes (entropyBytes n) = bufferBytes n := by
  rw [entropyBytes_eq, bufferBytes_eq, cksumBytes_eq]
  omega

theorem validate_fits (n : Nat) : fits n (bufferBytes n) = true := by
  rw [fits_iff, bufferBytes_eq]
  omega

/-- Some entry is absent (spec/42_mnemonic.md R146). -/
theorem any_absent_iff (m : Memory) (n : Nat) :
    (m.wordEntries n).any absentEntry = true ↔ ∃ j < n, 2048 ≤ (m.word j).toNat := by
  simp [Memory.wordEntries, absentEntry, Config.wordlistSize]

theorem validatePack_mem (s : State) (n : Nat) : (validatePack s n).mem = packedMem true s.mem n (bufferBytes n) := rfl

/-- The stream bits of the packed buffer. -/
theorem dbit_validatePack (s : State) {n p : Nat} (h : p < 8 * bufferBytes n) : dbit (validatePack s n).mem p =
    (decide (p < 11 * n) && (s.mem.word (p / 11)).getLsbD (10 - p % 11)) := by
  rw [validatePack_mem, dbit_packedMem]
  simp [Nat.not_le.mpr h]

/-- VALIDATE's rule answers in one of six ways (OVERFLOW is not among them, spec/42_mnemonic.md R145). -/
theorem validateRule_cases (s : State) :
    (s.opCount = 0 ∧ s.lev = false ∧ validateRule s = answer false .empty s) ∨
    (s.opCount % 3 ≠ 0 ∧ validateRule s = answer false .count s) ∨
    (s.opCount % 3 = 0 ∧ 768 < s.opCount ∧ validateRule s = answer false .capacity s) ∨
    (s.opCount % 3 = 0 ∧ s.opCount ≤ 768 ∧ (∃ j < s.opCount, 2048 ≤ (s.mem.word j).toNat) ∧
      validateRule s = answer false .absent s) ∨
    (s.opCount % 3 = 0 ∧ s.opCount ≤ 768 ∧ (s.opCount = 0 → s.lev = true) ∧
      (∀ j < s.opCount, (s.mem.word j).toNat < 2048) ∧
      validateRule s = validateCompare (validatePack s s.opCount) s.opCount) := by
  by_cases h0 : s.opCount = 0 ∧ s.lev = false
  · exact .inl ⟨h0.1, h0.2, by simp [validateRule, h0]⟩
  by_cases h3 : s.opCount % 3 = 0
  swap
  · exact .inr (.inl ⟨h3, by simp [validateRule, h0, h3]⟩)
  by_cases hc : s.opCount ≤ 768
  swap
  · refine .inr (.inr (.inl ⟨h3, by omega, ?_⟩))
    simp [validateRule, h0, h3, Config.wordMax, Nat.lt_of_not_le hc]
  by_cases ha : ∃ j < s.opCount, 2048 ≤ (s.mem.word j).toNat
  · refine .inr (.inr (.inr (.inl ⟨h3, hc, ha, ?_⟩)))
    simp [validateRule, h0, h3, Config.wordMax, Nat.not_lt.mpr hc, (any_absent_iff _ _).2 ha]
  · refine .inr (.inr (.inr (.inr ⟨h3, hc, ?_, ?_, ?_⟩)))
    · intro hz
      by_contra hl
      exact h0 ⟨hz, by simpa using hl⟩
    · intro j hj
      by_contra hl
      exact ha ⟨j, hj, by omega⟩
    · have hb : ¬((s.mem.wordEntries s.opCount).any absentEntry = true) := fun e => ha ((any_absent_iff _ _).1 e)
      simp only [validateRule, if_neg h0, h3, Config.wordMax, if_neg (Nat.not_lt.mpr hc), if_neg hb, validate_fits,
        if_true, ne_eq, not_true_eq_false, if_false]

theorem validateCompare_cases (s : State) (n : Nat) :
    (extensionMatches s.mem (entropyBytes n) (bufferBytes n) = true ∧ validateCompare s n = answer true .ok s) ∨
    (extensionMatches s.mem (entropyBytes n) (bufferBytes n) = false ∧ validateCompare s n = answer false .checksum s) := by
  unfold validateCompare
  split
  · exact .inl ⟨‹_›, rfl⟩
  · rename_i h
    exact .inr ⟨by simpa using h, rfl⟩

/-! ## The model's own fields -/

/-- A completion does not look at the model's own fields, where its rule does not. -/
theorem complete_env {s : State} {e : Env} {r r' : Except ErrCode State}
    (h : r' = r.map fun t => { t with env := e }) :
    ∃ u, complete s r = .next u ∧ complete { s with env := e } r' = .next { u with env := e } := by
  subst h
  cases r with
  | ok t => exact ⟨_, rfl, rfl⟩
  | error code => exact ⟨_, rfl, rfl⟩

/-- Every command gives a next state, and neither looks at the model's own fields nor changes them. -/
theorem exec_env (i : Instr) (s : State) (e : Env) :
    ∃ u, exec i s = .next u ∧ exec i { s with env := e } = .next { u with env := e } := by
  cases i with
  | nop => exact complete_env (s := s) (r := .ok s) rfl
  | append =>
    refine complete_env (s := s) (r := appendRule s) ?_
    unfold appendRule
    show (match entLenError s.opL with | some code => _ | none => _) = _
    cases entLenError s.opL <;> rfl
  | verify =>
    refine complete_env (s := s) (r := verifyRule s) ?_
    unfold verifyRule
    show (match entLenError s.opL with | some code => _ | none => if s.opN > _ then _ else _) = _
    cases entLenError s.opL
    · simp only
      split <;> rfl
    · rfl
  | unpack =>
    refine complete_env (s := s) (r := unpackRule s) ?_
    unfold unpackRule
    show (if s.opN > _ then _ else _) = _
    split <;> rfl
  | pack z =>
    refine complete_env (s := s) (r := packRule z s) ?_
    unfold packRule
    show (if s.opN > _ then _ else if s.opCount > _ then _ else if fits s.opCount s.opN then _ else _) = _
    split
    · rfl
    · split
      · rfl
      · split <;> rfl
  | encode =>
    refine complete_env (s := s) (r := encodeRule s) ?_
    unfold encodeRule
    show (match entLenError s.opL with | some code => _ | none => _) = _
    cases entLenError s.opL <;> rfl
  | validate =>
    refine complete_env (s := s) (r := validateRule s) ?_
    unfold validateRule
    show (if s.opCount = 0 ∧ s.lev = false then _ else if s.opCount % 3 ≠ 0 then _ else if s.opCount > _ then _
      else if (s.mem.wordEntries s.opCount).any _ then _ else if fits s.opCount (bufferBytes s.opCount) then _ else _) = _
    split
    · rfl
    · split
      · rfl
      · split
        · rfl
        · split
          · rfl
          · split
            · show validateCompare { validatePack s s.opCount with env := e } s.opCount = _
              unfold validateCompare
              show (if extensionMatches (validatePack s s.opCount).mem _ _ then _ else _) = _
              split <;> rfl
            · rfl

end Sys2Proof.Machine
end

