-- ==== Sys2Proof/Laws/Decode.lean ====
section
/-! SUPPORT. A command word is its three fields, and what a legal word holds in them. -/

namespace Sys2Proof

/-- Two words with the same `op`, `z` and `rsv` are the same word (spec/30_encoding.md R80). -/
theorem word_eq_of_fields {v w : Word} (hr : rsvField v = rsvField w) (ho : opField v = opField w)
    (hz : zField v = zField w) : v = w := by
  apply BitVec.eq_of_getLsbD_eq
  intro k hk
  by_cases h : k < 8
  · have := congrArg (fun x => BitVec.getLsbD x k) ho
    simpa [opField, h] using this
  · by_cases h' : k = 8
    · subst h'
      exact hz
    · have := congrArg (fun x => BitVec.getLsbD x (k - 9)) hr
      simp [rsvField, show k - 9 < 23 by omega, show 9 + (k - 9) = k by omega] at this
      exact this

/-- The fields of a word that decodes to a command (spec/30_encoding.md R81, R82). -/
theorem decode_fields {v : Word} {i : Instr} (h : decode v = .ok i) :
    rsvField v = 0#23 ∧ opField v = opcodeOf i ∧ zField v = zFlagOf i := by
  unfold decode at h
  split at h
  · rename_i hr
    refine ⟨hr, ?_⟩
    unfold decodeOp at h
    have key : ∀ k : Nat, (opField v).toNat = k → k < 256 → opField v = BitVec.ofNat 8 k := by
      intro k hk hlt
      apply BitVec.eq_of_toNat_eq
      simp [hk]
      omega
    split at h <;> rename_i ho
    all_goals first
      | (have := key _ ho (by omega)
         unfold plainCommand at h
         cases hz : zField v <;> simp [hz] at h
         subst h
         exact ⟨this, rfl⟩)
      | (have := key _ ho (by omega)
         simp at h
         subst h
         exact ⟨this, rfl⟩)
      | (simp at h)
  · simp at h

end Sys2Proof
end

