-- ==== Sys2Proof/Laws/PerInstr.lean ====
section
/-! SUPPORT. The family Encoding: what each command's word holds in its three fields, one lemma per constructor. -/

namespace Sys2Proof.Laws.Encoding

/-- The command is well formed, and its word holds its operation code, its `z` flag and zero reserved bits
(spec/30_encoding.md R80, R81). -/
def Statement (i : Sys2Proof.Instr) : Prop :=
  i.wf = true ∧ Sys2Proof.opField (Sys2Proof.encode i) = Sys2Proof.opcodeOf i ∧
    Sys2Proof.zField (Sys2Proof.encode i) = Sys2Proof.zFlagOf i ∧ Sys2Proof.rsvField (Sys2Proof.encode i) = 0#23

theorem nop : Statement .nop := by unfold Statement; decide

theorem append : Statement .append := by unfold Statement; decide

theorem verify : Statement .verify := by unfold Statement; decide

theorem unpack : Statement .unpack := by unfold Statement; decide

theorem pack (z : Bool) : Statement (.pack z) := by cases z <;> unfold Statement <;> decide

theorem encode : Statement .encode := by unfold Statement; decide

theorem validate : Statement .validate := by unfold Statement; decide

end Sys2Proof.Laws.Encoding
end

