-- ==== Sys2Proof/Laws/Step.lean ====
section
/-! SUPPORT. What a bus write, a move of the host and a step can do, said once. -/

namespace Sys2Proof.Machine

theorem step_host {s : State} (h : s.nextTurn = .host) : step s = .next (hostMove s.popTurn) := by simp [step, h]

theorem step_engine {s : State} (h : s.nextTurn = .engine) : step s = engineMove s.popTurn := by simp [step, h]

theorem step_reset {s : State} (h : s.nextTurn = .reset) : step s = .next (blockReset s.popTurn) := by simp [step, h]

/-- A run makes its first step and goes on from there. -/
theorem run_next {s t : State} {k : Nat} (h : step s = .next t) :
    Host.Core.run Sys2Proof.core (k + 1) s = Host.Core.run Sys2Proof.core k t := by
  have h' : Sys2Proof.core.step s = .next t := h
  simp only [Host.Core.run, h']

theorem engineMove_idle {s : State} (h : s.status.busy = false) : engineMove s = .next s := by simp [engineMove, h]

theorem engineMove_legal {s : State} {i : Instr} (h : s.status.busy = true) (hd : decode s.lcmd = .ok i) :
    engineMove s = exec i s := by simp [engineMove, h, hd]

theorem engineMove_illegal {s : State} {e : IllegalWord} (h : s.status.busy = true) (hd : decode s.lcmd = .error e) :
    engineMove s = execIllegal s := by simp [engineMove, h, hd]

theorem nextTurn_cons {s : State} {t : Turn} {rest : List Turn} (h : s.env.turns = t :: rest) : s.nextTurn = t := by
  simp [State.nextTurn, h]

theorem nextTurn_nil {s : State} (h : s.env.turns = []) :
    s.nextTurn = if s.status.busy then .engine else .host := by
  simp [State.nextTurn, h]

theorem registerAt_not_window (k j : Nat) :
    registerAt k ≠ some (.dataWindow j) ∧ registerAt k ≠ some (.wordWindow j) := by
  unfold registerAt
  split <;> simp

/-- What the address map gives for each range of offsets (spec/20_memory.md R53 to R55). -/
theorem target_cases (off : Offset) :
    (off.toNat % 4 ≠ 0 ∧ target off = none) ∨
    (off.toNat % 4 = 0 ∧ off.toNat < 0x1000 ∧ target off = registerAt (off.toNat / 4)) ∨
    (∃ j < 264, off.toNat = 0x1000 + 4 * j ∧ target off = some (.dataWindow j)) ∨
    (off.toNat % 4 = 0 ∧ 0x1420 ≤ off.toNat ∧ off.toNat < 0x2000 ∧ target off = none) ∨
    (∃ j < 384, off.toNat = 0x2000 + 4 * j ∧ target off = some (.wordWindow j)) ∨
    (off.toNat % 4 = 0 ∧ 0x2600 ≤ off.toNat ∧ target off = none) := by
  unfold target
  generalize off.toNat = a
  by_cases h0 : a % 4 = 0
  swap
  · exact .inl ⟨h0, if_pos h0⟩
  rw [if_neg (by omega)]
  by_cases h1 : a < 0x1000
  · exact .inr (.inl ⟨h0, h1, if_pos h1⟩)
  rw [if_neg h1]
  by_cases h2 : a < 0x1420
  · exact .inr (.inr (.inl ⟨(a - 0x1000) / 4, by omega, by omega, if_pos h2⟩))
  rw [if_neg h2]
  by_cases h3 : a < 0x2000
  · exact .inr (.inr (.inr (.inl ⟨h0, by omega, h3, if_pos h3⟩)))
  rw [if_neg h3]
  by_cases h4 : a < 0x2600
  · exact .inr (.inr (.inr (.inr (.inl ⟨(a - 0x2000) / 4, by omega, by omega, if_pos h4⟩))))
  · exact .inr (.inr (.inr (.inr (.inr ⟨h0, by omega, if_neg h4⟩))))

/-- The windows of the address map lie in the RAMs (spec/20_memory.md R55 to R57). -/
theorem target_dataWindow {off : Offset} {j : Nat} (h : target off = some (.dataWindow j)) :
    j < 264 ∧ off.toNat = 0x1000 + 4 * j := by
  obtain ⟨_, e⟩ | ⟨_, _, e⟩ | ⟨k, hk, ho, e⟩ | ⟨_, _, _, e⟩ | ⟨k, _, _, e⟩ | ⟨_, _, e⟩ := target_cases off <;>
    rw [e] at h
  · simp at h
  · exact absurd h (registerAt_not_window _ j).1
  · simp only [Option.some.injEq, Target.dataWindow.injEq] at h
    exact h ▸ ⟨hk, ho⟩
  all_goals simp at h

theorem target_wordWindow {off : Offset} {j : Nat} (h : target off = some (.wordWindow j)) :
    j < 384 ∧ off.toNat = 0x2000 + 4 * j := by
  obtain ⟨_, e⟩ | ⟨_, _, e⟩ | ⟨k, _, _, e⟩ | ⟨_, _, _, e⟩ | ⟨k, hk, ho, e⟩ | ⟨_, _, e⟩ := target_cases off <;>
    rw [e] at h
  · simp at h
  · exact absurd h (registerAt_not_window _ j).2
  · simp at h
  · simp at h
  · simp only [Option.some.injEq, Target.wordWindow.injEq] at h
    exact h ▸ ⟨hk, ho⟩
  · simp at h

theorem target_data {j : Nat} (h : j < 264) : target (BitVec.ofNat 14 (0x1000 + 4 * j)) = some (.dataWindow j) := by
  have ha : (BitVec.ofNat 14 (0x1000 + 4 * j)).toNat = 0x1000 + 4 * j := by
    rw [BitVec.toNat_ofNat, Nat.mod_eq_of_lt (by omega)]
  unfold target
  rw [ha, if_neg (by omega), if_neg (by omega), if_pos (by omega), show (0x1000 + 4 * j - 0x1000) / 4 = j by omega]

theorem target_word {j : Nat} (h : j < 384) : target (BitVec.ofNat 14 (0x2000 + 4 * j)) = some (.wordWindow j) := by
  have ha : (BitVec.ofNat 14 (0x2000 + 4 * j)).toNat = 0x2000 + 4 * j := by
    rw [BitVec.toNat_ofNat, Nat.mod_eq_of_lt (by omega)]
  unfold target
  rw [ha, if_neg (by omega), if_neg (by omega), if_neg (by omega), if_neg (by omega), if_pos (by omega),
    show (0x2000 + 4 * j - 0x2000) / 4 = j by omega]

/-! The nine registers under their offsets (spec/10_state.md R22). -/

@[simp] theorem target_id : target 0x0000#14 = some .id := by decide
@[simp] theorem target_ctrl : target 0x0004#14 = some .ctrl := by decide
@[simp] theorem target_status : target 0x0008#14 = some .status := by decide
@[simp] theorem target_cmd : target 0x000C#14 = some .cmd := by decide
@[simp] theorem target_entLen : target 0x0010#14 = some .entLen := by decide
@[simp] theorem target_extLen : target 0x0014#14 = some .extLen := by decide
@[simp] theorem target_wcount : target 0x0018#14 = some .wcount := by decide
@[simp] theorem target_wfull : target 0x001C#14 = some .wfull := by decide
@[simp] theorem target_result : target 0x0020#14 = some .result := by decide

/-- A bus write answers an error and does nothing, is dropped, or does what its target says. -/
theorem busWrite_cases (s : State) (off : Offset) (v : Word) :
    (target off = none ∧ busWrite s off v = s) ∨
    (∃ t, target off = some t ∧ s.status.busy = true ∧ writeGated t = true ∧ busWrite s off v = dropWrite s) ∨
    (∃ t, target off = some t ∧ (s.status.busy = false ∨ writeGated t = false) ∧
      busWrite s off v = writeTarget s v t) := by
  unfold busWrite
  cases h : target off with
  | none => exact .inl ⟨rfl, rfl⟩
  | some t =>
    by_cases hg : (s.status.busy && writeGated t) = true
    · refine .inr (.inl ⟨t, rfl, ?_, ?_, by simp [hg]⟩) <;> simp_all
    · refine .inr (.inr ⟨t, rfl, ?_, by simp [hg]⟩)
      simp at hg
      cases hb : s.status.busy <;> simp_all

/-- A move of the host does nothing, goes on in its script, reads, or writes. -/
theorem hostMove_cases (s : State) :
    hostMove s = s ∨ (∃ ops, hostMove s = s.withScript ops) ∨
    (∃ ops off, hostMove s = hostRead (s.withScript ops) off) ∨ (∃ off, hostMove s = hostRead s off) ∨
    (∃ ops off v, hostMove s = hostWrite (s.withScript ops) off v) := by
  unfold hostMove
  split
  · exact .inl rfl
  · exact .inr (.inr (.inl ⟨_, _, rfl⟩))
  · exact .inr (.inr (.inr (.inr ⟨_, _, _, rfl⟩)))
  · split
    · exact .inr (.inr (.inr (.inl ⟨_, rfl⟩)))
    · exact .inr (.inr (.inl ⟨_, _, rfl⟩))
  · split
    · exact .inr (.inl ⟨_, rfl⟩)
    · exact .inl rfl

@[simp] theorem busWrite_env (s : State) (off : Offset) (v : Word) : (busWrite s off v).env = s.env := by
  obtain ⟨_, h⟩ | ⟨_, _, _, _, h⟩ | ⟨t, _, _, h⟩ := busWrite_cases s off v
  · rw [h]
  · rw [h]; rfl
  · rw [h]; cases t <;> rfl

/-- A move of the host leaves the schedule. -/
@[simp] theorem hostMove_turns (s : State) : (hostMove s).env.turns = s.env.turns := by
  obtain h | ⟨_, h⟩ | ⟨_, _, h⟩ | ⟨_, h⟩ | ⟨_, _, _, h⟩ := hostMove_cases s <;> rw [h] <;> simp

/-- What nothing the host does changes while a command runs: all that the command reads or writes, and its latches
(spec/20_memory.md R58). -/
def Frozen (s t : State) : Prop :=
  t.status.busy = s.status.busy ∧ t.mem = s.mem ∧ t.entLen = s.entLen ∧ t.extLen = s.extLen ∧ t.wcount = s.wcount ∧
    t.wfull = s.wfull ∧ t.result = s.result ∧ t.lcmd = s.lcmd ∧ t.lev = s.lev ∧ t.status.errcode = s.status.errcode

theorem frozen_refl (s : State) : Frozen s s := ⟨rfl, rfl, rfl, rfl, rfl, rfl, rfl, rfl, rfl, rfl⟩

theorem frozen_trans {s t u : State} (h : Frozen s t) (h2 : Frozen t u) : Frozen s u := by
  unfold Frozen at *
  simp_all

theorem frozen_busWrite {s : State} (hb : s.status.busy = true) (off : Offset) (v : Word) :
    Frozen s (busWrite s off v) := by
  obtain ⟨_, h⟩ | ⟨_, _, _, _, h⟩ | ⟨t, _, hg, h⟩ := busWrite_cases s off v <;> rw [h]
  · exact frozen_refl s
  · exact ⟨rfl, rfl, rfl, rfl, rfl, rfl, rfl, rfl, rfl, rfl⟩
  · have hg : writeGated t = false := by simpa [hb] using hg
    cases t <;> first | exact ⟨rfl, rfl, rfl, rfl, rfl, rfl, rfl, rfl, rfl, rfl⟩ | simp [writeGated] at hg

theorem frozen_hostMove {s : State} (hb : s.status.busy = true) : Frozen s (hostMove s) := by
  obtain h | ⟨_, h⟩ | ⟨_, _, h⟩ | ⟨_, h⟩ | ⟨ops, off, v, h⟩ := hostMove_cases s <;> rw [h]
  · exact frozen_refl s
  · exact ⟨rfl, rfl, rfl, rfl, rfl, rfl, rfl, rfl, rfl, rfl⟩
  · exact ⟨rfl, rfl, rfl, rfl, rfl, rfl, rfl, rfl, rfl, rfl⟩
  · exact ⟨rfl, rfl, rfl, rfl, rfl, rfl, rfl, rfl, rfl, rfl⟩
  · exact frozen_busWrite (s := s.withScript ops) hb off v

/-- A RAM offset of a window, for the canonical form. -/
theorem Memory.wf_writeWindow {m : Memory} {v : Word} (h : m.wf = true) :
    (∀ j < 264, (m.writeLanes (dataBase + 4 * j) v).wf = true) ∧
      ∀ j < 384, (m.writeLanes (wordBase + 4 * j) v).wf = true := by
  refine ⟨fun j hj => Memory.wf_writeLanes h fun k hk => ?_, fun j hj => Memory.wf_writeLanes h fun k hk => ?_⟩
  · rw [Nat.add_assoc]
    exact ramOffset_data (by omega)
  · rw [Nat.add_assoc]
    exact ramOffset_word (by omega)

end Sys2Proof.Machine
end

