-- ==== Sys2Proof/Tests/Slice0.lean ====
section
/-! SUPPORT. Tests of single steps against the vectors of spec/95_test_vectors.md, and one witness for every statement with
hypotheses. No expected value here comes from the model. -/

namespace Sys2Proof.Tests

-- The tests are checked one after the other: side by side they take more memory than a check may use.
set_option Elab.async false

open Sys2Proof Sys2Proof.Machine

/-! ## Well-formedness: an ill-formed term for each check -/

/-- LOADD's first index is a multiple of 4 (spec/30_encoding.md R90). -/
theorem test_loadd_unaligned_is_ill_formed :
    HostStmt.wf (.loadd 2 [0x01#8]) = false ∧ HostStmt.wf (.loadd 4 [0x01#8]) = true := by decide

/-- LOADD stays within the 14-bit offsets (spec/20_memory.md R51). -/
theorem test_loadd_past_the_offsets_is_ill_formed : HostStmt.wf (.loadd 0x3000 [0x01#8]) = false := by decide

/-- LOADW's first index is even (spec/30_encoding.md R90). -/
theorem test_loadw_odd_is_ill_formed :
    HostStmt.wf (.loadw 1 [0x0001#16]) = false ∧ HostStmt.wf (.loadw 2 [0x0001#16]) = true := by decide

/-- LOADW stays within the 14-bit offsets (spec/20_memory.md R51). -/
theorem test_loadw_past_the_offsets_is_ill_formed : HostStmt.wf (.loadw 0x1000 [0x0001#16]) = false := by decide

/-- Every command is well formed (spec/30_encoding.md R83). -/
theorem test_commands_are_well_formed : Instr.wf .nop = true ∧ Instr.wf (.pack true) = true := by decide

/-! ## Decoding: `rsv` (23 bits), `z`, `op` (8 bits), written out from spec/30_encoding.md R80, R81 -/

theorem test_decode_nop : decode (0b00000000000000000000000#23 ++ 0b0#1 ++ 0b00000000#8) = .ok .nop := by decide
theorem test_decode_append : decode (0b00000000000000000000000#23 ++ 0b0#1 ++ 0b00000001#8) = .ok .append := by decide
theorem test_decode_verify : decode (0b00000000000000000000000#23 ++ 0b0#1 ++ 0b00000010#8) = .ok .verify := by decide
theorem test_decode_unpack : decode (0b00000000000000000000000#23 ++ 0b0#1 ++ 0b00000011#8) = .ok .unpack := by decide
theorem test_decode_pack : decode (0b00000000000000000000000#23 ++ 0b0#1 ++ 0b00000100#8) = .ok (.pack false) := by decide
theorem test_decode_pack_z : decode (0b00000000000000000000000#23 ++ 0b1#1 ++ 0b00000100#8) = .ok (.pack true) := by decide
theorem test_decode_encode : decode (0b00000000000000000000000#23 ++ 0b0#1 ++ 0b00000101#8) = .ok .encode := by decide
theorem test_decode_validate : decode (0b00000000000000000000000#23 ++ 0b0#1 ++ 0b00000110#8) = .ok .validate := by decide

/-- The words of vectors K2 to K5 are illegal, and so is the last operation code (spec/30_encoding.md R87). -/
theorem test_decode_illegal : decode 0x00000007#32 = .error .operationCode ∧ decode 0x00000103#32 = .error .zeroFillFlag ∧
    decode 0x00000204#32 = .error .reservedBits ∧ decode 0x80000006#32 = .error .reservedBits ∧
    decode 0x000000FF#32 = .error .operationCode := by decide

/-- The words of spec/opcode_table.json, as the host numbers their bits. -/
theorem test_decode_table_word : decodeTableWord 32 0x00000004 = some (.pack false) ∧
    decodeTableWord 32 0x00000006 = some .validate ∧ decodeTableWord 32 0x00000103 = none := by decide

/-! ## States to step -/

/-- The reset state with the three operand registers set and the first bytes of DATA and entries of WORD written. -/
def testState (l n cnt : Nat) (ds : List Byte) (ws : List Entry) : State :=
  { State.reset with
    entLen := BitVec.ofNat 11 l
    extLen := BitVec.ofNat 11 n
    wcount := BitVec.ofNat 10 cnt
    mem := (State.reset.mem.writeData 0 ds).writeWords 0 ws }

/-- `cnt` equal bytes, then others. -/
def bytes (cnt : Nat) (b : Byte) (rest : List Byte) : List Byte := List.replicate cnt b ++ rest

/-- The next state of an outcome. -/
def nextOf : Host.Outcome State Fault Refusal → State
  | .next s => s
  | .fault _ => State.reset
  | .refused _ => State.reset

/-- The state with a schedule. -/
def withTurns (s : State) (ts : List Turn) : State := { s with env := { s.env with turns := ts } }

/-- A command gives the next state that `nextOf` names. -/
theorem exec_nextOf (i : Instr) (s : State) : exec i s = .next (nextOf (exec i s)) := by
  obtain ⟨u, h, _⟩ := exec_env i s s.env
  rw [h]
  rfl

/-! ## One step of each command (spec/95_test_vectors.md sections 2 to 5) -/

/-- Vector K1. -/
theorem test_nop_k1 : (nextOf (step (State.reset.withFetchWord 32 0x00000000))).status.toWord = 0x00000002#32 := by
  decide +kernel

/-- Vector C4: two checksum bytes, the second masked to one bit. -/
theorem test_append_c4 :
    let t := nextOf (exec .append (testState 36 0 0 (bytes 36 0x00#8 [0xee#8, 0xee#8, 0xee#8, 0xee#8]) []))
    t.status.toWord = 0x00000002#32 ∧ t.extLen = 38#11 ∧
      [t.mem.data 36, t.mem.data 37, t.mem.data 38, t.mem.data 39] = [0x6d#8, 0x80#8, 0xee#8, 0xee#8] := by
  decide +kernel

/-- Vector C7: the modulus check comes before the range. -/
theorem test_append_c7 : (nextOf (exec .append (testState 1025 0 0 [] []))).status.toWord = 0x00000106#32 := by
  decide +kernel

/-- Vector C16. -/
theorem test_verify_c16 :
    (nextOf (exec .verify (testState 36 38 0 (bytes 36 0x00#8 [0x6d#8, 0x80#8]) []))).result.toWord = 0x00000002#32 := by
  decide +kernel

/-- Vector C17: a masked-off bit of the last checksum byte is compared. -/
theorem test_verify_c17 :
    (nextOf (exec .verify (testState 36 38 0 (bytes 36 0x00#8 [0x6d#8, 0x81#8]) []))).result.toWord = 0x00000000#32 := by
  decide +kernel

/-- Vector B4: groups cross byte boundaries, and the trailing one ends in zeros. -/
theorem test_unpack_b4 :
    let t := nextOf (exec .unpack (testState 0 3 0 [0x12#8, 0x34#8, 0x56#8] (List.replicate 4 0x5555#16)))
    t.mem.wordEntries 4 = [145#16, 1301#16, 1024#16, 0x5555#16] ∧ t.wcount = 3#10 ∧ t.wfull = 2#10 := by
  decide +kernel

/-- Vector B9. -/
theorem test_unpack_b9 :
    let t := nextOf (exec .unpack (testState 0 1057 7 [] [0x5555#16]))
    t.status.toWord = 0x00000306#32 ∧ t.mem.word 0 = 0x5555#16 ∧ t.wcount = 7#10 := by
  decide +kernel

/-- Vector B13: entries masked to 11 bits, the byte after the buffer kept. -/
theorem test_pack_b13 :
    (nextOf (exec (.pack true) (testState 0 3 2 [0x00#8, 0x00#8, 0x00#8, 0x99#8] [0xFFFF#16, 0x8001#16]))).mem.dataBytes 4 =
      [0xff#8, 0xe0#8, 0x04#8, 0x99#8] := by
  decide +kernel

/-- Vector B14: without the zero fill the bits are ORed into the old bytes. -/
theorem test_pack_b14 :
    (nextOf (exec (.pack false) (testState 0 5 3 (bytes 6 0xaa#8 []) [0x123#16, 0x456#16, 0x789#16]))).mem.dataBytes 6 =
      [0xae#8, 0xfb#8, 0xfb#8, 0xee#8, 0xaa#8, 0xaa#8] := by
  decide +kernel

/-- Vector M2. -/
theorem test_encode_m2 :
    let t := nextOf (exec .encode (testState 16 0 0 (bytes 16 0x7f#8 []) []))
    t.mem.data 16 = 0x80#8 ∧ t.extLen = 17#11 ∧ t.wcount = 12#10 ∧ t.wfull = 12#10 ∧ t.mem.wordEntries 12 =
      [1019#16, 2015#16, 1790#16, 2039#16, 1983#16, 1533#16, 2031#16, 1919#16, 1019#16, 2015#16, 1790#16, 2040#16] := by
  decide +kernel

/-- Vector M4m. -/
theorem test_encode_m4m : (nextOf (exec .encode (testState 1028 0 0 [] []))).status.toWord = 0x00000306#32 := by
  decide +kernel

/-- Vector M14, the round trip of M2, over a DATA RAM full of other bytes. -/
theorem test_validate_m14 :
    let t := nextOf (exec .validate (testState 0 0 12 (bytes 18 0xee#8 [])
      [1019#16, 2015#16, 1790#16, 2039#16, 1983#16, 1533#16, 2031#16, 1919#16, 1019#16, 2015#16, 1790#16, 2040#16]))
    t.result.toWord = 0x00000001#32 ∧ t.entLen = 16#11 ∧ t.extLen = 17#11 ∧
      t.mem.dataBytes 18 = bytes 16 0x7f#8 [0x80#8, 0xee#8] := by
  decide +kernel

/-- Vector M9: COUNT is checked before ABSENT. -/
theorem test_validate_m9 :
    let t := nextOf (exec .validate (testState 0 0 13 [] (List.replicate 12 0x0000#16 ++ [0xFFFF#16])))
    t.result.toWord = 0x00000020#32 ∧ t.status.toWord = 0x00000002#32 := by
  decide +kernel

/-! ## The digest (the rows of spec/95_test_vectors.md section 3.2) -/

/-- Row C1: the digest of the empty string begins e3 b0. -/
theorem test_digest_empty : (sha256 []).extractLsb' 240 16 = 0xe3b0#16 := by decide +kernel

/-- Section 1.1: the digest of 16 zero bytes begins 37 47 08 ff. -/
theorem test_digest_zero16 : (sha256 (List.replicate 16 0x00#8)).extractLsb' 224 32 = 0x374708ff#32 := by decide +kernel

/-- Row C5: the whole digest of 1024 zero bytes, 17 blocks. -/
theorem test_digest_zero1024 : sha256 (List.replicate 1024 0x00#8) =
    0x5f70bf18a086007016e948b04aed3b82103a36bea41755b6cddfaf10ace3c6ef#256 := by decide +kernel

/-! ## The bus (spec/95_test_vectors.md section 5) -/

/-- Vector K6: a write while BUSY is dropped, and NOP completes after it. -/
theorem test_bus_k6 :
    let t := nextOf (engineMove (busWrite (busWrite State.reset 0x000C#14 0x00000000#32) 0x0010#14 0x00000008#32))
    t.status.toWord = 0x0000000A#32 ∧ t.entLen = 0#11 := by decide +kernel

/-- Vector K9: the interrupt, and its clearing. -/
theorem test_bus_k9 :
    let t := nextOf (engineMove (busWrite (busWrite State.reset 0x0004#14 0x00000001#32) 0x000C#14 0x00000000#32))
    t.irq = true ∧ (busWrite t 0x0008#14 0x00000002#32).irq = false ∧
      (busWrite t 0x0008#14 0x00000002#32).status.toWord = 0x00000000#32 := by decide +kernel

/-- Vector K11: ERR is cleared and ERRCODE kept. -/
theorem test_bus_k11 :
    (busWrite (nextOf (exec .append (testState 15 0 0 [] []))) 0x0008#14 0x00000004#32).status.toWord = 0x00000102#32 := by
  decide +kernel

/-- Vectors K14 to K19 and K21. -/
theorem test_bus_registers : readData State.reset 0x0000#14 = 0x42503131#32 ∧ readData State.reset 0x0024#14 = 0#32 ∧
    busResp 0x0024#14 = .error ∧ busResp 0x0006#14 = .error ∧
    readData (busWrite State.reset 0x0010#14 0xFFFFFFFF#32) 0x0010#14 = 0x000007FF#32 ∧
    readData (busWrite State.reset 0x0018#14 0xFFFFFFFF#32) 0x0018#14 = 0x000003FF#32 ∧
    readData (busWrite State.reset 0x0004#14 0xFFFFFFFF#32) 0x0004#14 = 0x00000003#32 ∧
    readData State.reset 0x000C#14 = 0#32 := by decide +kernel

/-- Vectors K22 to K25. -/
theorem test_bus_windows : (busWrite State.reset 0x1000#14 0x04030201#32).mem.dataBytes 4 = [0x01#8, 0x02#8, 0x03#8, 0x04#8] ∧
    readData (busWrite State.reset 0x1000#14 0x04030201#32) 0x1000#14 = 0x04030201#32 ∧
    (busWrite State.reset 0x2000#14 0x0003FFFF#32).mem.wordEntries 2 = [0xFFFF#16, 0x0003#16] ∧
    readData (busWrite State.reset 0x2000#14 0x0003FFFF#32) 0x2000#14 = 0x0003FFFF#32 ∧
    busResp 0x1420#14 = .error ∧ busResp 0x2600#14 = .error := by decide +kernel

/-- The first words of LOADD and LOADW in programs P5 (spec/95_test_vectors.md section 6). -/
theorem test_script_p5 : expandScript [.loadw 0 [0x123#16, 0x456#16, 0x789#16], .wr 0x0018#14 3#32, .cmd (.pack true), .wait] =
    [.write 0x2000#14 0x04560123#32, .write 0x2004#14 0x00000789#32, .write 0x0018#14 3#32,
      .write 0x000C#14 0x00000104#32, .poll] := by decide +kernel

/-- `RD 0x0024 == 0` of program P4 holds of the reply the bus gives. -/
theorem test_script_assertion :
    assertionHolds (.rdEq 0x0024#14 0#32) (.read (readData State.reset 0x0024#14) (busResp 0x0024#14)) = true ∧
      assertionHolds (.rdEq 0x0024#14 1#32) (.read (readData State.reset 0x0024#14) (busResp 0x0024#14)) = false := by
  decide +kernel

/-! ## Witnesses: for every statement with hypotheses, states and operands that meet them, clause by clause -/

/-- A command in flight: the word accepted by the reset state. -/
def inFlight (v : Word) : State := accept State.reset v

theorem witness_DecodeAndEncodeAgree : Instr.wf (.pack true) = true ∧ decode 0x00000104#32 = .ok (.pack true) := by decide

theorem witness_IllegalWordsAreAcceptedAndFail : State.reset.status.busy = false ∧
    (inFlight 0x00000204#32).status.busy = true ∧ (inFlight 0x00000204#32).lcmd = 0x00000204#32 ∧
    ∀ i, decode 0x00000204#32 ≠ .ok i := by
  refine ⟨rfl, rfl, rfl, fun i h => ?_⟩
  have e : decode 0x00000204#32 = .error .reservedBits := by decide
  rw [e] at h
  cases h

theorem witness_StepRunsTheCommandInFlight :
    ((inFlight 0x00000003#32).nextTurn = .engine ∧ (inFlight 0x00000003#32).status.busy = true ∧
      decode (inFlight 0x00000003#32).lcmd = .ok .unpack) ∧
    ((withTurns State.reset [.engine]).nextTurn = .engine ∧ (withTurns State.reset [.engine]).status.busy = false) ∧
    State.reset.nextTurn = .host ∧ (withTurns State.reset [.reset]).nextTurn = .reset := by decide

theorem witness_ResetLeavesTheResetValues :
    (withTurns (inFlight 0x00000005#32) [.reset, .host]).nextTurn = .reset := by decide

theorem witness_EveryStepKeepsTheInvariant : (inFlight 0x00000005#32).Inv ∧
    step (inFlight 0x00000005#32) = .next (nextOf (exec .encode (inFlight 0x00000005#32).popTurn)) :=
  ⟨⟨rfl, by decide, by decide, by decide⟩, by
    rw [step_engine (by decide), engineMove_legal (i := .encode) (by decide) (by decide)]
    exact exec_nextOf _ _⟩

theorem witness_EveryAcceptedCommandCompletes :
    (withTurns (inFlight 0x00000002#32) [.host, .host, .engine]).status.busy = true ∧
      Turn.reset ∉ (withTurns (inFlight 0x00000002#32) [.host, .host, .engine]).env.turns := by decide

theorem witness_HostMovesDoNotReachACommandInFlight :
    (withTurns (inFlight 0x00000001#32) [.host, .host, .engine, .host]).status.busy = true ∧
      (withTurns (inFlight 0x00000001#32) [.host, .host, .engine, .host]).env.turns =
        List.replicate 2 Turn.host ++ Turn.engine :: [.host] := by decide

/-- Lengths 0 and 1024 complete, 1 and 1025 are no multiple of 4, 1028 and 2044 are out of range. -/
theorem witness_AppendFollowsItsRule :
    (∀ l ∈ [0, 4, 1024], (testState l 0 0 [] []).entLen.toNat % 4 = 0 ∧ (testState l 0 0 [] []).entLen.toNat ≤ 1024) ∧
    (∀ l ∈ [1, 1023, 1025, 2047], (testState l 0 0 [] []).entLen.toNat % 4 ≠ 0) ∧
    (∀ l ∈ [1028, 2044],
      (testState l 0 0 [] []).entLen.toNat % 4 = 0 ∧ 1024 < (testState l 0 0 [] []).entLen.toNat) := by decide +kernel

theorem witness_VerifyFollowsItsRule :
    (∀ l ∈ [0, 1024], ∀ n ∈ [0, 1056], (testState l n 0 [] []).entLen.toNat % 4 = 0 ∧
      (testState l n 0 [] []).entLen.toNat ≤ 1024 ∧ (testState l n 0 [] []).extLen.toNat ≤ 1056) ∧
    (testState 1025 0 0 [] []).entLen.toNat % 4 ≠ 0 ∧
    ((testState 1028 0 0 [] []).entLen.toNat % 4 = 0 ∧ 1024 < (testState 1028 0 0 [] []).entLen.toNat) ∧
    ((testState 16 1057 0 [] []).entLen.toNat % 4 = 0 ∧ (testState 16 1057 0 [] []).entLen.toNat ≤ 1024 ∧
      1056 < (testState 16 1057 0 [] []).extLen.toNat) := by decide +kernel

theorem witness_UnpackFollowsItsRule : (∀ n ∈ [0, 1, 11, 1056], (testState 0 n 0 [] []).extLen.toNat ≤ 1056) ∧
    (∀ n ∈ [1057, 2047], 1056 < (testState 0 n 0 [] []).extLen.toNat) := by decide +kernel

theorem witness_PackFollowsItsRule :
    (∀ p ∈ [(0, 0), (3, 0), (11, 8), (1056, 768)], (testState 0 p.1 p.2 [] []).extLen.toNat ≤ 1056 ∧
      (testState 0 p.1 p.2 [] []).wcount.toNat ≤ 768 ∧
      11 * (testState 0 p.1 p.2 [] []).wcount.toNat ≤ 8 * (testState 0 p.1 p.2 [] []).extLen.toNat) ∧
    1056 < (testState 0 1057 769 [] []).extLen.toNat ∧
    ((testState 0 1056 769 [] []).extLen.toNat ≤ 1056 ∧ 768 < (testState 0 1056 769 [] []).wcount.toNat) ∧
    ((testState 0 1 1 [] []).extLen.toNat ≤ 1056 ∧ (testState 0 1 1 [] []).wcount.toNat ≤ 768 ∧
      8 * (testState 0 1 1 [] []).extLen.toNat < 11 * (testState 0 1 1 [] []).wcount.toNat) := by decide +kernel

theorem witness_EncodeFollowsItsRule :
    (∀ l ∈ [0, 4, 32, 1024], (testState l 0 0 [] []).entLen.toNat % 4 = 0 ∧
      (testState l 0 0 [] []).entLen.toNat ≤ 1024) ∧
    (testState 15 0 0 [] []).entLen.toNat % 4 ≠ 0 ∧
    ((testState 1028 0 0 [] []).entLen.toNat % 4 = 0 ∧ 1024 < (testState 1028 0 0 [] []).entLen.toNat) := by
  decide +kernel

/-- The three words 0, 0, 1 (vector M17), for the clauses that reach the pack step. -/
def validPhrase : State := testState 0 0 3 [] [0#16, 0#16, 1#16]

/-- The three words 0, 0, 0 (vector M18): they differ from the valid ones in the checksum bit. -/
def tamperedPhrase : State := testState 0 0 3 [] [0#16, 0#16, 0#16]

theorem witness_ValidateFollowsItsRule :
    (State.reset.wcount.toNat = 0 ∧ State.reset.lev = false) ∧
    (∀ n ∈ [1, 769, 1022], (testState 0 0 n [] []).wcount.toNat % 3 ≠ 0) ∧
    (∀ n ∈ [771, 1023], (testState 0 0 n [] []).wcount.toNat % 3 = 0 ∧ 768 < (testState 0 0 n [] []).wcount.toNat) ∧
    ((testState 0 0 3 [] [0#16, 2047#16, 2048#16]).wcount.toNat % 3 = 0 ∧
      (testState 0 0 3 [] [0#16, 2047#16, 2048#16]).wcount.toNat ≤ 768 ∧
      ∃ i < 3, 2048 ≤ ((testState 0 0 3 [] [0#16, 2047#16, 2048#16]).mem.word i).toNat) ∧
    (validPhrase.wcount.toNat % 3 = 0 ∧ validPhrase.wcount.toNat ≤ 768 ∧
      (validPhrase.wcount.toNat = 0 → validPhrase.lev = true) ∧
      ∀ i < validPhrase.wcount.toNat, (validPhrase.mem.word i).toNat < 2048) := by decide +kernel

theorem witness_PackAfterTrailingGroupOverflows :
    (testState 0 1 0 [0xff#8] []).extLen.toNat ≤ 1056 ∧ 8 * (testState 0 1 0 [0xff#8] []).extLen.toNat % 11 ≠ 0 ∧
      exec .unpack (testState 0 1 0 [0xff#8] []) = .next (nextOf (exec .unpack (testState 0 1 0 [0xff#8] []))) :=
  ⟨by decide, by decide, exec_nextOf _ _⟩

/-- The sequence of vectors B15 and B23. -/
def packed : State := testState 0 5 3 (bytes 6 0xaa#8 []) [0x123#16, 0x456#16, 0x789#16]

/-- What PACK.Z left, with the UNPACK that follows accepted. -/
def packedThenAccepted : State := accept (nextOf (exec (.pack true) packed)) 0x00000003#32

theorem witness_UnpackReadsWhatPackWrote : exec (.pack true) packed = .next (nextOf (exec (.pack true) packed)) ∧
    (nextOf (exec (.pack true) packed)).status.errcode = .noError ∧
    packedThenAccepted.extLen = (nextOf (exec (.pack true) packed)).extLen ∧
    ∀ a, packedThenAccepted.mem.data a = (nextOf (exec (.pack true) packed)).mem.data a :=
  ⟨exec_nextOf _ _, by decide +kernel, rfl, fun _ => rfl⟩

/-- The sequence of vector B25. -/
def unpackedFirst : State := nextOf (exec .unpack (testState 0 3 0 [0x12#8, 0x34#8, 0x56#8] []))

/-- What UNPACK left, with WCOUNT set to WFULL and the PACK.Z that follows accepted. -/
def unpackedThenAccepted : State := accept { unpackedFirst with wcount := unpackedFirst.wfull } 0x00000104#32

theorem witness_PackRestoresWhatUnpackRead :
    exec .unpack (testState 0 3 0 [0x12#8, 0x34#8, 0x56#8] []) = .next unpackedFirst ∧
    unpackedFirst.status.errcode = .noError ∧ unpackedThenAccepted.extLen = unpackedFirst.extLen ∧
    unpackedThenAccepted.wcount = unpackedFirst.wfull ∧
    ∀ i, unpackedThenAccepted.mem.word i = unpackedFirst.mem.word i :=
  ⟨exec_nextOf _ _, by decide +kernel, rfl, rfl, fun _ => rfl⟩

/-- APPEND to 36 zero bytes (vector C4). -/
def appendedState : State := nextOf (exec .append (testState 36 0 0 (bytes 36 0x00#8 []) []))

theorem witness_ExtensionEndsInZeroBits :
    exec .append (testState 36 0 0 (bytes 36 0x00#8 []) []) = .next appendedState ∧
      appendedState.status.errcode = .noError := ⟨exec_nextOf _ _, by decide +kernel⟩

theorem witness_VerifyAcceptsWhatAppendWrote :
    exec .append (testState 36 0 0 (bytes 36 0x00#8 []) []) = .next appendedState ∧
      appendedState.status.errcode = .noError ∧ exec .verify appendedState = .next (nextOf (exec .verify appendedState)) :=
  ⟨exec_nextOf _ _, by decide +kernel, exec_nextOf _ _⟩

theorem witness_ExtensionHoldsThreeGroupsPerFourBytes :
    ∀ l ∈ [0, 4, 28, 32, 36, 1024], l % 4 = 0 ∧ l ≤ 1024 := by decide

/-- ENCODE of 4 zero bytes (vector M4b), and of nothing with EMPTY_VALID latched (vector M12a). -/
theorem witness_ValidateAcceptsWhatEncodeWrote :
    (exec .encode (testState 4 0 0 (bytes 4 0x00#8 []) []) =
        .next (nextOf (exec .encode (testState 4 0 0 (bytes 4 0x00#8 []) []))) ∧
      (nextOf (exec .encode (testState 4 0 0 (bytes 4 0x00#8 []) []))).status.errcode = .noError ∧
      0 < (testState 4 0 0 (bytes 4 0x00#8 []) []).entLen.toNat) ∧
    (exec .encode State.reset = .next (nextOf (exec .encode State.reset)) ∧
      (nextOf (exec .encode State.reset)).status.errcode = .noError ∧
      ({ nextOf (exec .encode State.reset) with lev := true } : State).lev = true) :=
  ⟨⟨exec_nextOf _ _, by decide +kernel, by decide⟩, exec_nextOf _ _, by decide +kernel, rfl⟩

theorem witness_ValidateTestsExactlyTheChecksumBits :
    exec .validate validPhrase = .next (nextOf (exec .validate validPhrase)) ∧
    exec .validate tamperedPhrase = .next (nextOf (exec .validate tamperedPhrase)) ∧
    ReachedPack (nextOf (exec .validate validPhrase)) ∧ ReachedPack (nextOf (exec .validate tamperedPhrase)) ∧
    tamperedPhrase.wcount = validPhrase.wcount ∧ 1 = validPhrase.wcount.toNat / 3 ∧
    (nextOf (exec .validate validPhrase)).result.vreason = .ok ∧
    (∀ p < 32 * 1, dbit (nextOf (exec .validate tamperedPhrase)).mem p = dbit (nextOf (exec .validate validPhrase)).mem p) ∧
    ∃ b < 1, dbit (nextOf (exec .validate tamperedPhrase)).mem (32 * 1 + b) ≠
      dbit (nextOf (exec .validate validPhrase)).mem (32 * 1 + b) :=
  ⟨exec_nextOf _ _, exec_nextOf _ _, .inl (by decide +kernel), .inr (by decide +kernel), by decide +kernel,
    by decide +kernel, by decide +kernel, by decide +kernel, by decide +kernel⟩

theorem witness_CommandsWriteOnlyTheirFields :
    exec .encode (testState 16 0 0 (bytes 16 0x7f#8 []) []) =
      .next (nextOf (exec .encode (testState 16 0 0 (bytes 16 0x7f#8 []) []))) := exec_nextOf _ _

/-- Two states that agree in what APPEND reads and in nothing else it might look at. -/
theorem witness_CommandsReadOnlyTheirOperands :
    InputsAgree .append (testState 4 7 0 [1#8, 2#8, 3#8, 4#8, 5#8] []) (testState 4 9 1 [1#8, 2#8, 3#8, 4#8, 6#8] [2#16]) ∧
    exec .append (testState 4 7 0 [1#8, 2#8, 3#8, 4#8, 5#8] []) =
      .next (nextOf (exec .append (testState 4 7 0 [1#8, 2#8, 3#8, 4#8, 5#8] []))) ∧
    exec .append (testState 4 9 1 [1#8, 2#8, 3#8, 4#8, 6#8] [2#16]) =
      .next (nextOf (exec .append (testState 4 9 1 [1#8, 2#8, 3#8, 4#8, 6#8] [2#16]))) ∧
    (nextOf (exec .append (testState 4 7 0 [1#8, 2#8, 3#8, 4#8, 5#8] []))).status.errcode = .noError := by
  refine ⟨⟨by decide +kernel, ?_⟩, exec_nextOf _ _, exec_nextOf _ _, by decide +kernel⟩
  decide +kernel

theorem witness_BusErrorsHaveNoEffect :
    (∀ off ∈ [0x0001#14, 0x1002#14, 0x3FFF#14], off.toNat % 4 ≠ 0) ∧
    (∀ off ∈ [0x0024#14, 0x0FFC#14], 0x0024 ≤ off.toNat ∧ off.toNat < 0x1000) ∧
    (∀ off ∈ [0x1420#14, 0x1FFC#14], 0x1420 ≤ off.toNat ∧ off.toNat < 0x2000) ∧
    (∀ off ∈ [0x2600#14, 0x3FFC#14], 0x2600 ≤ off.toNat) ∧
    (∀ off ∈ [0x0000#14, 0x0020#14, 0x1000#14, 0x141C#14, 0x2000#14, 0x25FC#14], off.toNat % 4 = 0 ∧
      (off.toNat < 0x0024 ∨ (0x1000 ≤ off.toNat ∧ off.toNat < 0x1420) ∨ (0x2000 ≤ off.toNat ∧ off.toNat < 0x2600))) := by
  simp

theorem witness_DataWindowIsLittleEndian : 0 < 264 ∧ 263 < 264 ∧ State.reset.status.busy = false := by decide

theorem witness_WordWindowHasTheEvenEntryLow : 0 < 384 ∧ 383 < 384 ∧ State.reset.status.busy = false := by decide

theorem witness_BusyWritesAreDropped : (inFlight 0x00000000#32).status.busy = true ∧
    (∀ off ∈ [0x000C#14, 0x0010#14, 0x0014#14, 0x0018#14, 0x1000#14, 0x141C#14, 0x2000#14, 0x25FC#14],
      off.toNat % 4 = 0 ∧ (off.toNat = 0x000C ∨ off.toNat = 0x0010 ∨ off.toNat = 0x0014 ∨ off.toNat = 0x0018 ∨
        (0x1000 ≤ off.toNat ∧ off.toNat < 0x1420) ∨ (0x2000 ≤ off.toNat ∧ off.toNat < 0x2600))) ∧
    (0x0004#14).toNat = 0x0004 ∧ (0x0008#14).toNat = 0x0008 ∧
    (∀ off ∈ [0x0000#14, 0x001C#14, 0x0020#14], off.toNat = 0x0000 ∨ off.toNat = 0x001C ∨ off.toNat = 0x0020) := by simp [State.reset, inFlight]

theorem witness_BusyReadsAreGated : (inFlight 0x00000000#32).status.busy = true ∧
    (∀ off ∈ [0x0010#14, 0x0020#14, 0x1000#14, 0x141C#14, 0x2000#14, 0x25FC#14], off.toNat % 4 = 0 ∧
      ((0x0010 ≤ off.toNat ∧ off.toNat < 0x0024) ∨ (0x1000 ≤ off.toNat ∧ off.toNat < 0x1420) ∨
        (0x2000 ≤ off.toNat ∧ off.toNat < 0x2600))) ∧
    (0x0000#14).toNat = 0x0000 ∧ (0x0004#14).toNat = 0x0004 ∧ (0x0008#14).toNat = 0x0008 ∧
    (0x000C#14).toNat = 0x000C := by simp [State.reset, inFlight]

theorem witness_RepeatedAccessesAreIdempotent : State.reset.status.busy = false ∧
    ∀ off ∈ [0x0004#14, 0x0010#14, 0x0014#14, 0x0018#14, 0x1000#14, 0x25FC#14, 0x3FFF#14],
      off.toNat = 0x0004 ∨ off.toNat = 0x0010 ∨ off.toNat = 0x0014 ∨ off.toNat = 0x0018 ∨ 0x1000 ≤ off.toNat := by simp [State.reset]

/-- For RegistersReadBackTheirFields, ReadOnlyRegistersIgnoreWrites and CmdWriteIsAcceptedOnlyWhileIdle. -/
theorem witness_idle_and_busy : State.reset.status.busy = false ∧ (inFlight 0x00000006#32).status.busy = true := by decide

theorem witness_InterruptFollowsCompletion : (inFlight 0x00000000#32).status.busy = true ∧
    engineMove (inFlight 0x00000000#32) = .next (nextOf (exec .nop (inFlight 0x00000000#32))) ∧
    (0x00000002#32).getLsbD 1 = true ∧ (0x00000002#32).getLsbD 0 = false ∧ (0x00000001#32).getLsbD 0 = true :=
  ⟨rfl, exec_nextOf .nop _, by decide⟩

theorem witness_OneTransactionIsOneHostStep :
    ((State.reset.withScript [.write 0x0010#14 16#32, .poll]).nextTurn = .host ∧
      (State.reset.withScript [.write 0x0010#14 16#32, .poll]).env.script = .write 0x0010#14 16#32 :: [.poll]) ∧
    ((State.reset.withScript [.read 0x0008#14]).nextTurn = .host ∧
      (State.reset.withScript [.read 0x0008#14]).env.script = .read 0x0008#14 :: []) := by decide

/-- An idle block that holds `irq` at 1. -/
def interrupting : State :=
  { State.reset with ctrl := writeCtrl 0x00000001#32, status := okStatus State.reset }

/-- A poll while idle and while busy, and a wait for `irq` while it is 0 and while it is 1. -/
theorem witness_WaitEndsWhenBusyIsClear :
    (State.reset.withScript [.poll]).env.script = .poll :: [] ∧
      ((inFlight 0x00000000#32).withScript [.poll, .read 0x0020#14]).env.script = .poll :: [.read 0x0020#14] ∧
      ((State.reset.withScript [.awaitIrq]).env.script = .awaitIrq :: [] ∧ State.reset.irq = false) ∧
      ((interrupting.withScript [.awaitIrq]).env.script = .awaitIrq :: [] ∧ interrupting.irq = true) := by decide

theorem witness_LoadStatementsFillTheRams : State.reset.status.busy = false ∧ State.reset.env.turns = [] ∧
    (1052 % 4 = 0 ∧ 1052 + [1#8, 2#8, 3#8].length ≤ 1056) ∧ (766 % 2 = 0 ∧ 766 + [1#16].length ≤ 768) := by decide

/-- A host that writes CMD, waits and reads, with the engine's step after two of its own. -/
def handshake : State :=
  withTurns (State.reset.withScript [.write 0x000C#14 0x00000000#32, .poll, .read 0x0008#14]) [.host, .host, .engine]

theorem witness_HandshakeSeesTheCompletion : handshake.status.busy = false ∧ Turn.reset ∉ handshake.env.turns ∧
    handshake.env.script = .write 0x000C#14 0x00000000#32 :: .poll :: [.read 0x0008#14] ∧
    Host.Core.run Sys2Proof.core 4 handshake = .next (nextOf (Host.Core.run Sys2Proof.core 4 handshake)) ∧
    (nextOf (Host.Core.run Sys2Proof.core 4 handshake)).env.script = [.read 0x0008#14] := by
  refine ⟨by decide, by decide, by decide, rfl, by decide +kernel⟩

/-- The empty schedule, and one in which the host polls twice before the engine moves. -/
theorem witness_NopExampleRunsUnderEverySchedule :
    Turn.reset ∉ ([] : List Turn) ∧ Turn.reset ∉ [Turn.host, .host, .host, .engine] := by decide

end Sys2Proof.Tests
end

/-! ## What each command writes (spec/10_state.md R37) -/

namespace Sys2Proof.Machine

/-- From `s` to `t` only what `i` may write has changed: the rows of spec/10_state.md R37, one field per column. A field
that a rule does not touch needs no proof of its own. -/
structure WritesOnly (i : Instr) (s t : State) : Prop where
  ctrl : t.ctrl = s.ctrl := by exact rfl
  lcmd : t.lcmd = s.lcmd := by exact rfl
  lev : t.lev = s.lev := by exact rfl
  env : t.env = s.env := by exact rfl
  ovr : t.status.ovr = s.status.ovr := by exact rfl
  err : t.status.err ≠ s.status.err → t.status.err = true ∧ i ≠ .nop ∧ i ≠ .validate := by exact absurd rfl
  entLen : t.entLen ≠ s.entLen → i = .validate ∧ ReachedPack t := by exact absurd rfl
  extLen : t.extLen ≠ s.extLen → i = .append ∨ i = .encode ∨ (i = .validate ∧ ReachedPack t) := by exact absurd rfl
  wcount : t.wcount ≠ s.wcount → i = .unpack ∨ i = .encode := by exact absurd rfl
  wfull : t.wfull ≠ s.wfull → i = .unpack ∨ i = .encode := by exact absurd rfl
  valid : t.result.valid ≠ s.result.valid → i = .validate := by exact absurd rfl
  vreason : t.result.vreason ≠ s.result.vreason → i = .validate := by exact absurd rfl
  matched : t.result.matched ≠ s.result.matched → i = .verify := by exact absurd rfl
  mem : ∀ a, t.mem.read a ≠ s.mem.read a → MayWrite i s a ∧ (i = .validate → ReachedPack t) := by
    exact fun _ => absurd rfl

/-- A completion without error adds BUSY, DONE and ERRCODE to what the rule wrote (spec/60_exceptions.md R193). -/
theorem WritesOnly.completed {i : Instr} {s u : State} (h : WritesOnly i s u) :
    WritesOnly i s { u with status := u.status.completed } := { h with }

/-- An error completion sets ERR, which R37 allows to every command but NOP and VALIDATE (spec/60_exceptions.md R192). -/
theorem writesOnly_raiseError {i : Instr} (hn : i ≠ .nop) (hv : i ≠ .validate) (code : ErrCode) (s : State) :
    WritesOnly i s (raiseError code s) where
  err _ := ⟨rfl, hn, hv⟩

theorem writesOnly_of_complete {i : Instr} {s t : State} {r : Except ErrCode State}
    (hok : ∀ u, r = .ok u → WritesOnly i s u) (herr : ∀ code, r = .error code → i ≠ .nop ∧ i ≠ .validate)
    (h : complete s r = .next t) : WritesOnly i s t := by
  cases r with
  | ok u => exact complete_ok_next rfl h ▸ (hok u rfl).completed
  | error code =>
    obtain ⟨hn, hv⟩ := herr code rfl
    exact complete_error_next rfl h ▸ writesOnly_raiseError hn hv code s

theorem writesOnly_appendRule {s u : State} (h : appendRule s = .ok u) : WritesOnly .append s u := by
  obtain ⟨_, _, e⟩ | ⟨_, e⟩ | ⟨_, _, e⟩ := appendRule_cases s <;> rw [e] at h <;> cases h
  exact {
    extLen := fun _ => .inl rfl
    mem := fun a ha => ⟨not_imp_comm.1 (read_appended_other s a) ha, nofun⟩ }

theorem writesOnly_verifyRule {s u : State} (h : verifyRule s = .ok u) : WritesOnly .verify s u := by
  obtain ⟨_, _, _, e⟩ | ⟨_, e⟩ | ⟨_, _, e⟩ := verifyRule_cases s <;> rw [e] at h <;> cases h
  exact { matched := fun _ => rfl }

theorem writesOnly_unpackRule {s u : State} (h : unpackRule s = .ok u) : WritesOnly .unpack s u := by
  obtain ⟨_, e⟩ | ⟨_, e⟩ := unpackRule_cases s <;> rw [e] at h <;> cases h
  exact {
    wcount := fun _ => .inl rfl
    wfull := fun _ => .inl rfl
    mem := fun a ha => ⟨not_imp_comm.1 (read_unpacked_other s a) ha, nofun⟩ }

theorem writesOnly_packRule {z : Bool} {s u : State} (h : packRule z s = .ok u) : WritesOnly (.pack z) s u := by
  obtain ⟨_, _, hfit, e⟩ | ⟨_, e⟩ | ⟨_, _, _, e⟩ := packRule_cases z s <;> rw [e] at h <;> cases h
  exact { mem := fun a ha => ⟨not_imp_comm.1 (read_packedMem_outside z s.mem hfit a) ha, nofun⟩ }

/-- A RAM byte that ENCODE's writes change is one of the checksum or of the entries. -/
theorem mayWrite_of_read_encodeWrites_ne {s : State} (hl : s.opL % 4 = 0) {a : Nat}
    (ha : (encodeWrites s s.opL).mem.read a ≠ s.mem.read a) : MayWrite .encode s a := by
  by_contra hn
  obtain ⟨hcks, hwords⟩ := not_or.1 hn
  exact ha (read_encodeWrites_other s s.opL a hcks (by rwa [fullCount_extended hl]))

theorem writesOnly_encodeRule {s u : State} (h : encodeRule s = .ok u) : WritesOnly .encode s u := by
  obtain ⟨hl, _, e⟩ | ⟨_, e⟩ | ⟨_, _, e⟩ := encodeRule_cases s <;> rw [e] at h <;> cases h
  exact {
    extLen := fun _ => .inr (.inl rfl)
    wcount := fun _ => .inr rfl
    wfull := fun _ => .inr rfl
    mem := fun a ha => ⟨mayWrite_of_read_encodeWrites_ne hl ha, nofun⟩ }

/-- VALIDATE always answers: over the state as it was, or over the packed one, and then with OK or CHECKSUM
(spec/42_mnemonic.md R142). -/
theorem validateRule_answers (s : State) : ∃ v r, validateRule s = answer v r s ∨
    (validateRule s = answer v r (validatePack s s.opCount) ∧ (r = .ok ∨ r = .checksum)) := by
  obtain ⟨_, _, e⟩ | ⟨_, e⟩ | ⟨_, _, e⟩ | ⟨_, _, _, e⟩ | ⟨_, _, _, _, e⟩ := validateRule_cases s
  case' inr.inr.inr.inr =>
    obtain ⟨_, e'⟩ | ⟨_, e'⟩ := validateCompare_cases (validatePack s s.opCount) s.opCount
    · exact ⟨_, _, .inr ⟨e.trans e', .inl rfl⟩⟩
    · exact ⟨_, _, .inr ⟨e.trans e', .inr rfl⟩⟩
  all_goals exact ⟨_, _, .inl e⟩

theorem validateRule_ne_error (s : State) (code : ErrCode) : validateRule s ≠ .error code := by
  obtain ⟨v, r, e | ⟨e, _⟩⟩ := validateRule_answers s <;> rw [e] <;> exact nofun

theorem writesOnly_validateRule {s u : State} (h : validateRule s = .ok u) : WritesOnly .validate s u := by
  obtain ⟨v, r, e | ⟨e, hr⟩⟩ := validateRule_answers s <;> rw [e] at h <;> cases h
  · exact { valid := fun _ => rfl, vreason := fun _ => rfl }
  · exact {
      entLen := fun _ => ⟨rfl, hr⟩
      extLen := fun _ => .inr (.inr ⟨rfl, hr⟩)
      valid := fun _ => rfl
      vreason := fun _ => rfl
      mem := fun a ha =>
        ⟨not_imp_comm.1 (read_packedMem_outside true s.mem ((fits_iff _ _).1 (validate_fits s.opCount)) a) ha,
          fun _ => hr⟩ }

/-- Every command keeps to its row of spec/10_state.md R37. -/
theorem exec_writesOnly {i : Instr} {s t : State} (h : exec i s = .next t) : WritesOnly i s t := by
  cases i with
  | nop => exact writesOnly_of_complete (r := .ok s) (fun u hu => by cases hu; exact {}) nofun h
  | append => exact writesOnly_of_complete (fun _ => writesOnly_appendRule) (fun _ _ => ⟨nofun, nofun⟩) h
  | verify => exact writesOnly_of_complete (fun _ => writesOnly_verifyRule) (fun _ _ => ⟨nofun, nofun⟩) h
  | unpack => exact writesOnly_of_complete (fun _ => writesOnly_unpackRule) (fun _ _ => ⟨nofun, nofun⟩) h
  | pack z => exact writesOnly_of_complete (fun _ => writesOnly_packRule) (fun _ _ => ⟨nofun, nofun⟩) h
  | encode => exact writesOnly_of_complete (fun _ => writesOnly_encodeRule) (fun _ _ => ⟨nofun, nofun⟩) h
  | validate =>
    exact writesOnly_of_complete (fun _ => writesOnly_validateRule)
      (fun code e => absurd e (validateRule_ne_error s code)) h

/-- Settles O27: every command keeps to its row of R37, and the columns of the row are the claim. -/
theorem commandsWriteOnlyTheirFields : Obligations.CommandsWriteOnlyTheirFields := by
  intro i s t h
  have w := exec_writesOnly h
  exact ⟨w.ctrl, w.lcmd, w.lev, w.env, w.ovr, w.err, w.entLen, w.extLen, w.wcount, w.wfull, w.valid, w.vreason,
    w.matched, w.mem⟩

end Sys2Proof.Machine

/-! ## The registers on the bus (spec/10_state.md R23 to R31, spec/20_memory.md R58, R59) -/

namespace Sys2Proof.Machine

/-- A read that BUSY does not gate returns what its target holds (spec/20_memory.md R59). -/
theorem readData_of_target {s : State} {off : Offset} {t : Target} (h : target off = some t)
    (hg : s.status.busy = false ∨ readGated t = false) : readData s off = targetValue s t := by
  simp [readData, h, Bool.and_eq_false_iff.2 hg]

/-- A write that BUSY does not gate does what its target says (spec/20_memory.md R58). -/
theorem busWrite_of_target {s : State} {off : Offset} {t : Target} (h : target off = some t)
    (hg : s.status.busy = false ∨ writeGated t = false) (v : Word) : busWrite s off v = writeTarget s v t := by
  simp [busWrite, h, Bool.and_eq_false_iff.2 hg]

/-- A gated write while BUSY = 1 is dropped (spec/20_memory.md R58). -/
theorem busWrite_of_busy {s : State} {off : Offset} {t : Target} (h : target off = some t)
    (hb : s.status.busy = true) (hg : writeGated t = true) (v : Word) : busWrite s off v = dropWrite s := by
  simp [busWrite, h, hb, hg]

/-- Every mapped offset answers OKAY (spec/20_memory.md R55). -/
theorem busResp_of_target {off : Offset} {t : Target} (h : target off = some t) : busResp off = .okay := by
  simp [busResp, h]

/-! ### Reset (spec/10_state.md R38) -/

/-- What a reset leaves, at power-on and in a run: the reset state but for the RAMs and the model's own fields. -/
theorem eq_reset_of_reset {s : State} (h : s = State.reset ∨ ∃ u : State, u.nextTurn = .reset ∧ step u = .next s) :
    ∃ m e, s = { State.reset with mem := m, env := e } := by
  obtain rfl | ⟨u, hu, h⟩ := h
  · exact ⟨_, _, rfl⟩
  · rw [step_reset hu] at h
    injection h with h
    exact ⟨_, _, h.symm⟩

/-- The registers of spec/10_state.md R22 after ID, in the order of their offsets. -/
def registersAfterId : List Target := [.ctrl, .status, .cmd, .entLen, .extLen, .wcount, .wfull, .result]

/-- The offsets after ID's reach these registers. -/
theorem target_registersAfterId :
    ∀ off ∈ [0x0004#14, 0x0008#14, 0x000C#14, 0x0010#14, 0x0014#14, 0x0018#14, 0x001C#14, 0x0020#14],
      ∃ t ∈ registersAfterId, target off = some t := by
  simp [registersAfterId]

/-- No register shows the RAMs or the model's own fields, and each but ID reads 0 in the reset state. -/
theorem targetValue_reset {t : Target} (h : t ∈ registersAfterId) (m : Memory) (e : Env) :
    targetValue { State.reset with mem := m, env := e } t = 0#32 := by
  have hzero : ∀ t ∈ registersAfterId, targetValue State.reset t = 0#32 := by decide
  have hsame : targetValue { State.reset with mem := m, env := e } t = targetValue State.reset t := by
    fin_cases h <;> rfl
  exact hsame.trans (hzero t h)

/-- Settles O5: a reset leaves the reset state but for the RAMs and the model's own fields, and that state reads so. -/
theorem resetLeavesTheResetValues : Obligations.ResetLeavesTheResetValues := by
  refine ⟨fun s hs => ?_, fun u hu => ⟨_, step_reset hu⟩⟩
  obtain ⟨m, e, rfl⟩ := eq_reset_of_reset hs
  refine ⟨readData_of_target target_id (.inl rfl), rfl, rfl, rfl, rfl, rfl, rfl, rfl, rfl, rfl, rfl, rfl, rfl, rfl, rfl,
    rfl, fun off hoff => ?_⟩
  obtain ⟨t, ht, htarget⟩ := target_registersAfterId off hoff
  exact (readData_of_target htarget (.inl rfl)).trans (targetValue_reset ht m e)

/-! ### STATUS and RESULT field by field -/

/-- Where the fields of STATUS stand (spec/10_state.md R25), over its 80 values. -/
theorem Status.toWord_fields (st : Status) :
    st.toWord.getLsbD 0 = st.busy ∧ st.toWord.getLsbD 1 = st.done ∧ st.toWord.getLsbD 2 = st.err ∧
    st.toWord.getLsbD 3 = st.ovr ∧ st.toWord.extractLsb' 4 4 = 0#4 ∧
    st.toWord.extractLsb' 8 4 = st.errcode.code ∧ st.toWord.extractLsb' 12 20 = 0#20 := by
  obtain ⟨busy, done, err, ovr, code⟩ := st
  revert busy done err ovr
  cases code <;> decide

/-- Where the fields of RESULT stand (spec/10_state.md R31), over its 28 values. -/
theorem Result.toWord_fields (r : Result) :
    r.toWord.getLsbD 0 = r.valid ∧ r.toWord.getLsbD 1 = r.matched ∧ r.toWord.extractLsb' 2 2 = 0#2 ∧
    r.toWord.extractLsb' 4 3 = r.vreason.code ∧ r.toWord.extractLsb' 7 25 = 0#25 := by
  obtain ⟨valid, matched, reason⟩ := r
  revert valid matched
  cases reason <;> decide

/-- Settles O35: STATUS is never gated, its fields stand where R25 puts them, and a write is the W1C update. -/
theorem statusIsWriteOneToClear : Obligations.StatusIsWriteOneToClear := by
  intro s v
  rw [readData_of_target target_status (.inr rfl)]
  obtain ⟨hbusy, hdone, herr, hovr, hlow, hcode, hhigh⟩ := s.status.toWord_fields
  exact ⟨hbusy, hdone, herr, hovr, hlow, hcode, hhigh, busWrite_of_target target_status (.inr rfl) v⟩

/-! ### What the writable registers store (spec/10_state.md R24, R27 to R29) -/

/-- A stored field of `n` bits reads back as the low `n` bits of the word written. -/
theorem setWidth_setWidth_eq_and (v : Word) {n : Nat} (h : n ≤ 32) :
    (v.setWidth n).setWidth 32 = v &&& BitVec.ofNat 32 (2 ^ n - 1) := by
  have hle : 2 ^ n ≤ 2 ^ 32 := Nat.pow_le_pow_right (by omega) h
  have hpos : 0 < 2 ^ n := Nat.two_pow_pos n
  apply BitVec.eq_of_toNat_eq
  rw [BitVec.toNat_and, BitVec.toNat_ofNat, Nat.mod_eq_of_lt (by omega), Nat.and_two_pow_sub_one_eq_mod,
    BitVec.toNat_setWidth, BitVec.toNat_setWidth]
  exact Nat.mod_eq_of_lt ((Nat.mod_lt _ hpos).trans_le hle)

/-- CTRL reads back the two low bits of the word written (spec/10_state.md R24). -/
theorem toWord_writeCtrl (v : Word) : (writeCtrl v).toWord = v &&& 0x00000003#32 := by
  have hbits : ∀ b : BitVec 2, Ctrl.toWord ⟨b.getLsbD 0, b.getLsbD 1⟩ = b.setWidth 32 := by decide
  calc (writeCtrl v).toWord
    _ = Ctrl.toWord ⟨(v.setWidth 2).getLsbD 0, (v.setWidth 2).getLsbD 1⟩ := by simp [writeCtrl]
    _ = (v.setWidth 2).setWidth 32 := hbits _
    _ = v &&& 0x00000003#32 := setWidth_setWidth_eq_and v (by omega)

/-- A read after a write that leaves the block idle shows what the register then holds. -/
theorem readData_busWrite_of_idle {s : State} {off : Offset} {t : Target} {v : Word} (h : target off = some t)
    (hb : s.status.busy = false) (hb' : (writeTarget s v t).status.busy = false) :
    readData (busWrite s off v) off = targetValue (writeTarget s v t) t := by
  rw [busWrite_of_target h (.inl hb), readData_of_target h (.inl hb')]

/-- Settles O36: each write stores the low bits of the word in its own register, which the read shows. -/
theorem registersReadBackTheirFields : Obligations.RegistersReadBackTheirFields := by
  intro s v hb
  refine ⟨(readData_busWrite_of_idle target_ctrl hb hb).trans (toWord_writeCtrl v),
    (readData_busWrite_of_idle target_entLen hb hb).trans (setWidth_setWidth_eq_and v (by omega)),
    (readData_busWrite_of_idle target_extLen hb hb).trans (setWidth_setWidth_eq_and v (by omega)),
    (readData_busWrite_of_idle target_wcount hb hb).trans (setWidth_setWidth_eq_and v (by omega)),
    busWrite_of_target target_ctrl (.inl hb) v, ?_, ?_, ?_⟩
  · rw [busWrite_of_target target_entLen (.inl hb)]
    rfl
  · rw [busWrite_of_target target_extLen (.inl hb)]
    rfl
  · rw [busWrite_of_target target_wcount (.inl hb)]
    rfl

/-! ### The read-only registers and CMD (spec/10_state.md R23, R26, R30, R31) -/

/-- Settles O37: ID is never gated, and a write to a read-only register leaves the block as it is. -/
theorem readOnlyRegistersIgnoreWrites : Obligations.ReadOnlyRegistersIgnoreWrites := by
  intro s v
  refine ⟨readData_of_target target_id (.inr rfl), ?_, fun hb => ?_⟩
  · simp only [List.forall_mem_cons]
    exact ⟨⟨busWrite_of_target target_id (.inr rfl) v, busResp_of_target target_id⟩,
      ⟨busWrite_of_target target_wfull (.inr rfl) v, busResp_of_target target_wfull⟩,
      ⟨busWrite_of_target target_result (.inr rfl) v, busResp_of_target target_result⟩, nofun⟩
  · rw [readData_of_target target_result (.inl hb)]
    exact ⟨readData_of_target target_wfull (.inl hb), s.result.toWord_fields⟩

/-- Settles O38: a write to CMD is the acceptance while idle and a dropped write while busy. -/
theorem cmdWriteIsAcceptedOnlyWhileIdle : Obligations.CmdWriteIsAcceptedOnlyWhileIdle := by
  intro s v
  exact ⟨readData_of_target target_cmd (.inr rfl), busResp_of_target target_cmd,
    fun hb => busWrite_of_target target_cmd (.inl hb) v, fun hb => busWrite_of_busy target_cmd hb rfl v⟩

end Sys2Proof.Machine

/-! ## The address map and the RAM windows (spec/20_memory.md R53 to R61) -/

namespace Sys2Proof.Machine

/-! ### Which offsets are mapped -/

theorem registerAt_eq_none_iff (k : Nat) : registerAt k = none ↔ 9 ≤ k := by
  obtain hlt | hge := Nat.lt_or_ge k 9
  · interval_cases k <;> simp [registerAt]
  · obtain ⟨m, rfl⟩ := Nat.exists_eq_add_of_le' hge
    simp [registerAt]

/-- CMD is the fourth register (spec/10_state.md R22). -/
theorem registerAt_eq_cmd {k : Nat} (h : registerAt k = some .cmd) : k = 3 := by
  revert h
  unfold registerAt
  split <;> simp

/-- The offsets that are misaligned (spec/20_memory.md R53) or unmapped (R54), and no others, reach nothing. -/
theorem target_eq_none_iff (off : Offset) : target off = none ↔
    off.toNat % 4 ≠ 0 ∨ (0x0024 ≤ off.toNat ∧ off.toNat < 0x1000) ∨ (0x1420 ≤ off.toNat ∧ off.toNat < 0x2000) ∨
      0x2600 ≤ off.toNat := by
  obtain ⟨_, e⟩ | ⟨_, _, e⟩ | ⟨j, _, _, e⟩ | ⟨_, _, _, e⟩ | ⟨j, _, _, e⟩ | ⟨_, _, e⟩ := target_cases off <;> rw [e]
  case inr.inl => rw [registerAt_eq_none_iff]; omega
  all_goals simp only [reduceCtorEq, false_iff, true_iff]; omega

theorem busResp_of_mapped {off : Offset} (h : target off ≠ none) : busResp off = .okay := by
  obtain ⟨t, ht⟩ := Option.ne_none_iff_exists'.1 h
  exact busResp_of_target ht

/-- Settles O29: the offsets of the two error rules are those without a target, and every other one has a target. -/
theorem busErrorsHaveNoEffect : Obligations.BusErrorsHaveNoEffect := by
  rintro s off v a rfl
  refine ⟨fun ha => ?_, fun halign hmap => busResp_of_mapped fun hnone => ?_⟩
  · have hnone := (target_eq_none_iff off).2 ha
    simp [busResp, readData, busWrite, hnone]
  · have := (target_eq_none_iff off).1 hnone
    omega

/-- Settles O33: the gated targets are mapped, the four others are read as while idle, and a read moves only `env`. -/
theorem busyReadsAreGated : Obligations.BusyReadsAreGated := by
  rintro s off a rfl
  refine ⟨fun _ halign hgated => busResp_of_mapped fun hnone => ?_, fun h => ?_, fun h => ?_, fun h => ?_, fun h => ?_,
    rfl⟩
  · have := (target_eq_none_iff off).1 hnone
    omega
  · obtain rfl : off = 0x0000#14 := BitVec.eq_of_toNat_eq h
    exact ⟨readData_of_target target_id (.inr rfl), busResp_of_target target_id⟩
  · obtain rfl : off = 0x0004#14 := BitVec.eq_of_toNat_eq h
    exact ⟨readData_of_target target_ctrl (.inr rfl), busResp_of_target target_ctrl⟩
  · obtain rfl : off = 0x0008#14 := BitVec.eq_of_toNat_eq h
    exact ⟨readData_of_target target_status (.inr rfl), busResp_of_target target_status⟩
  · obtain rfl : off = 0x000C#14 := BitVec.eq_of_toNat_eq h
    exact ⟨readData_of_target target_cmd (.inr rfl), busResp_of_target target_cmd⟩

/-! ### The lanes of a window's word -/

/-- Any number of low bits of two bit vectors side by side, as an OR of the two in their places. -/
theorem setWidth_append_eq_or {m n : Nat} (hi : BitVec m) (lo : BitVec n) (w : Nat) :
    (hi ++ lo).setWidth w = lo.setWidth w ||| hi.setWidth w <<< n := by
  ext k hk
  by_cases hkn : k < n
  · simp [BitVec.getLsbD_append, hkn]
  · simp [BitVec.getLsbD_append, hkn, BitVec.getLsbD_of_ge lo k (by omega)]

/-- The word of a RAM window, byte by byte: each in its lane (spec/20_memory.md R56). -/
theorem Memory.readLanes_eq_or (m : Memory) (a : Nat) : m.readLanes a =
    (m.read a).setWidth 32 ||| (m.read (a + 1)).setWidth 32 <<< 8 ||| (m.read (a + 2)).setWidth 32 <<< 16 |||
      (m.read (a + 3)).setWidth 32 <<< 24 := by
  calc m.readLanes a
    _ = (m.read (a + 3) ++ m.read (a + 2) ++ m.read (a + 1) ++ m.read a).setWidth 32 := (BitVec.setWidth_eq _).symm
    _ = _ := by
      simp only [setWidth_append_eq_or, BitVec.shiftLeft_or_distrib, ← BitVec.shiftLeft_add, BitVec.or_assoc]

/-- A word of the WORD window is the odd entry above the even one (spec/20_memory.md R57). -/
theorem Memory.readLanes_word (m : Memory) (j : Nat) :
    m.readLanes (wordBase + 4 * j) = m.word (2 * j + 1) ++ m.word (2 * j) := by
  unfold Memory.readLanes Memory.word
  rw [show wordBase + 2 * (2 * j) = wordBase + 4 * j by omega,
    show wordBase + 2 * (2 * j + 1) = wordBase + 4 * j + 2 by omega]
  exact BitVec.append_assoc

/-- The bytes that a word written to a RAM window leaves in its four lanes. -/
theorem Memory.read_writeLanes_lane (m : Memory) (a : Nat) (v : Word) {k : Nat} (hk : k < 4) :
    (m.writeLanes a v).read (a + k) = v.extractLsb' (8 * k) 8 := by
  rw [Memory.read_writeLanes]
  interval_cases k <;> simp

theorem Memory.read_writeLanes_other (m : Memory) {a b : Nat} (h : ¬(a ≤ b ∧ b < a + 4)) (v : Word) :
    (m.writeLanes a v).read b = m.read b := by
  rw [Memory.read_writeLanes, if_neg (by omega), if_neg (by omega), if_neg (by omega), if_neg (by omega)]

/-- The two entries that a word written to the WORD window leaves. -/
theorem Memory.word_writeLanes (m : Memory) (j : Nat) (v : Word) :
    (m.writeLanes (wordBase + 4 * j) v).word (2 * j) = v.extractLsb' 0 16 ∧
      (m.writeLanes (wordBase + 4 * j) v).word (2 * j + 1) = v.extractLsb' 16 16 := by
  have hv := (Memory.readLanes_word _ j).symm.trans (m.readLanes_writeLanes (wordBase + 4 * j) v)
  generalize (m.writeLanes (wordBase + 4 * j) v).word (2 * j) = lo at *
  generalize (m.writeLanes (wordBase + 4 * j) v).word (2 * j + 1) = hi at *
  subst hv
  exact ⟨BitVec.extractLsb'_append_eq_right.symm, BitVec.extractLsb'_append_eq_left.symm⟩

/-- Settles O30: the window's offset reaches the four lanes at `dataBase + 4 * j`, which read and write a byte each. -/
theorem dataWindowIsLittleEndian : Obligations.DataWindowIsLittleEndian := by
  intro s j v hj hb
  have ht := target_data hj
  refine ⟨busResp_of_target ht, ?_, ?_⟩
  · rw [readData_of_target ht (.inl hb)]
    exact s.mem.readLanes_eq_or (dataBase + 4 * j)
  · rw [busWrite_of_target ht (.inl hb)]
    refine ⟨rfl, fun k hk => ?_, fun a ha => s.mem.read_writeLanes_other ha v⟩
    unfold Memory.data
    rw [← Nat.add_assoc]
    exact s.mem.read_writeLanes_lane (dataBase + 4 * j) v hk

/-- Settles O31: the window's offset reaches the four lanes of two entries, the odd one above the even one. -/
theorem wordWindowHasTheEvenEntryLow : Obligations.WordWindowHasTheEvenEntryLow := by
  intro s j v hj hb
  have ht := target_word hj
  refine ⟨busResp_of_target ht, ?_, ?_⟩
  · rw [readData_of_target ht (.inl hb)]
    calc s.mem.readLanes (wordBase + 4 * j)
      _ = (s.mem.word (2 * j + 1) ++ s.mem.word (2 * j)).setWidth 32 :=
        (s.mem.readLanes_word j).trans (BitVec.setWidth_eq _).symm
      _ = _ := setWidth_append_eq_or _ _ 32
  · rw [busWrite_of_target ht (.inl hb)]
    obtain ⟨heven, hodd⟩ := s.mem.word_writeLanes j v
    exact ⟨rfl, heven, hodd, fun a ha => s.mem.read_writeLanes_other ha v⟩

/-! ### Repeated accesses (spec/20_memory.md R61) -/

/-- A word written twice to the same lanes leaves the bytes that it leaves once. -/
theorem Memory.read_writeLanes_twice (m : Memory) (a b : Nat) (v : Word) :
    ((m.writeLanes a v).writeLanes a v).read b = (m.writeLanes a v).read b := by
  by_cases h : a ≤ b ∧ b < a + 4
  · obtain ⟨k, rfl⟩ := Nat.exists_eq_add_of_le h.1
    rw [Memory.read_writeLanes_lane _ _ _ (by omega), Memory.read_writeLanes_lane _ _ _ (by omega)]
  · exact Memory.read_writeLanes_other _ h v

/-- A target takes a word twice as it takes it once, STATUS and CMD among them; the RAMs are compared by what they read
(log entry 1). -/
theorem writeTarget_twice (s : State) (v : Word) (t : Target) :
    writeTarget (writeTarget s v t) v t =
        { writeTarget s v t with mem := (writeTarget (writeTarget s v t) v t).mem } ∧
      ∀ a, (writeTarget (writeTarget s v t) v t).mem.read a = (writeTarget s v t).mem.read a := by
  cases t with
  | dataWindow j => exact ⟨rfl, fun a => s.mem.read_writeLanes_twice _ a v⟩
  | wordWindow j => exact ⟨rfl, fun a => s.mem.read_writeLanes_twice _ a v⟩
  | status =>
    refine ⟨?_, fun _ => rfl⟩
    simp [writeTarget, writeStatus]
  | _ => exact ⟨rfl, fun _ => rfl⟩

/-- No write but the one to CMD sets BUSY. -/
theorem writeTarget_busy (s : State) (v : Word) {t : Target} (h : t ≠ .cmd) :
    (writeTarget s v t).status.busy = s.status.busy := by
  cases t with
  | cmd => exact absurd rfl h
  | _ => rfl

/-- While idle, a bus write to any offset but CMD's, made twice, leaves what it leaves once. -/
theorem busWrite_twice_of_idle {s : State} {off : Offset} (hb : s.status.busy = false) (h : target off ≠ some .cmd)
    (v : Word) :
    busWrite (busWrite s off v) off v =
        { busWrite s off v with mem := (busWrite (busWrite s off v) off v).mem } ∧
      ∀ a, (busWrite (busWrite s off v) off v).mem.read a = (busWrite s off v).mem.read a := by
  cases ht : target off with
  | none => simp [busWrite, ht]
  | some t =>
    have hcmd : t ≠ .cmd := fun e => h (ht.trans (congrArg some e))
    rw [busWrite_of_target ht (.inl hb), busWrite_of_target ht (.inl ((writeTarget_busy s v hcmd).trans hb))]
    exact writeTarget_twice s v t

/-- CMD stands at its one offset (spec/10_state.md R22). -/
theorem toNat_of_target_cmd {off : Offset} (h : target off = some .cmd) : off.toNat = 0x000C := by
  obtain ⟨_, e⟩ | ⟨halign, _, e⟩ | ⟨_, _, _, e⟩ | ⟨_, _, _, e⟩ | ⟨_, _, _, e⟩ | ⟨_, _, e⟩ := target_cases off <;>
    rw [e] at h
  case inr.inl =>
    have := registerAt_eq_cmd h
    omega
  all_goals simp at h

/-- Settles O34: none of the offsets named is CMD's. -/
theorem repeatedAccessesAreIdempotent : Obligations.RepeatedAccessesAreIdempotent := by
  intro s off v hb
  refine ⟨fun _ => rfl, fun hoff => busWrite_twice_of_idle hb (fun hcmd => ?_) v⟩
  have := toNat_of_target_cmd hcmd
  omega

end Sys2Proof.Machine

/-! ## The host beside a command in flight (spec/20_memory.md R52, R58, R63, R64, spec/43_control.md R172 to R175) -/

namespace Sys2Proof.Machine

/-! ### What a host move and a turn do, by the head of the list -/

theorem hostMove_of_read {s : State} {off : Offset} {rest : List HostOp} (h : s.env.script = .read off :: rest) :
    hostMove s = hostRead (s.withScript rest) off := by simp [hostMove, h]

theorem hostMove_of_write {s : State} {off : Offset} {v : Word} {rest : List HostOp}
    (h : s.env.script = .write off v :: rest) : hostMove s = hostWrite (s.withScript rest) off v := by
  simp [hostMove, h]

theorem hostMove_of_poll {s : State} {rest : List HostOp} (h : s.env.script = .poll :: rest) :
    hostMove s = hostRead (if s.status.busy then s else s.withScript rest) statusOffset := by simp [hostMove, h]

/-- The block does not look at the model's own fields when it takes a write. -/
theorem busWrite_withEnv (s : State) (e : Env) (off : Offset) (v : Word) :
    busWrite { s with env := e } off v = { busWrite s off v with env := e } := by
  unfold busWrite
  cases target off with
  | none => rfl
  | some t =>
    simp only
    split
    · rfl
    · cases t <;> rfl

/-- A write is one step (spec/20_memory.md R52): it has its whole effect on the block and gets its reply. -/
theorem step_write {s : State} {off : Offset} {v : Word} {rest : List HostOp} (hturn : s.nextTurn = .host)
    (hscript : s.env.script = .write off v :: rest) :
    step s = .next { busWrite s off v with env :=
      { s.env with
        script := rest, turns := s.env.turns.tail, replies := .write (busResp off) :: s.env.replies } } := by
  rw [step_host hturn, hostMove_of_write (s := s.popTurn) hscript]
  simp only [hostWrite, State.withScript, State.popTurn, busWrite_withEnv]

/-- A read is one step (spec/20_memory.md R52): it leaves the block and gets its data and its response. -/
theorem step_read {s : State} {off : Offset} {rest : List HostOp} (hturn : s.nextTurn = .host)
    (hscript : s.env.script = .read off :: rest) :
    step s = .next { s with env :=
      { script := rest, turns := s.env.turns.tail
        replies := .read (readData s off) (busResp off) :: s.env.replies, reads := s.env.reads + 1 } } := by
  rw [step_host hturn, hostMove_of_read (s := s.popTurn) hscript]
  rfl

/-- A poll is one step (spec/30_encoding.md R90): it reads STATUS, and ends the wait where BUSY is 0. -/
theorem step_poll {s : State} {rest : List HostOp} (hturn : s.nextTurn = .host)
    (hscript : s.env.script = .poll :: rest) :
    step s = .next { s with env :=
      { script := if s.status.busy then .poll :: rest else rest, turns := s.env.turns.tail
        replies := .read s.status.toWord .okay :: s.env.replies, reads := s.env.reads + 1 } } := by
  rw [step_host hturn, hostMove_of_poll (s := s.popTurn) hscript, State.popTurn_status]
  have hdata (t : State) : readData t statusOffset = t.status.toWord := readData_of_target target_status (.inr rfl)
  have hresp : busResp statusOffset = .okay := busResp_of_target target_status
  cases s.status.busy <;> simp [hostRead, hdata, hresp, State.withScript, State.popTurn, hscript]

/-- Settles O40: the host's turn is its move, and the head of the script is the transaction made. -/
theorem oneTransactionIsOneHostStep : Obligations.OneTransactionIsOneHostStep :=
  ⟨fun _ _ _ _ => step_write, fun _ _ _ => step_read⟩

/-! ### The engine's step beside the host's moves -/

/-- The state with another CTRL, STATUS and environment: what no rule of a command looks at. -/
def State.withUnread (s : State) (c : Ctrl) (st : Status) (e : Env) : State :=
  { s with ctrl := c, status := st, env := e }

section
variable (s : State) (c : Ctrl) (st : Status) (e : Env)

@[simp] theorem State.withUnread_opL : (s.withUnread c st e).opL = s.opL := rfl

theorem appendRule_withUnread :
    appendRule (s.withUnread c st e) = (appendRule s).map fun t => t.withUnread c st e := by
  simp only [appendRule, State.withUnread_opL]
  cases entLenError s.opL <;> rfl

theorem verifyRule_withUnread :
    verifyRule (s.withUnread c st e) = (verifyRule s).map fun t => t.withUnread c st e := by
  simp only [verifyRule, State.withUnread_opL]
  cases entLenError s.opL with
  | some code => rfl
  | none =>
    show (if s.opN > Config.extMax then _ else _) = _
    split_ifs <;> rfl

theorem unpackRule_withUnread :
    unpackRule (s.withUnread c st e) = (unpackRule s).map fun t => t.withUnread c st e := by
  unfold unpackRule
  show (if s.opN > Config.extMax then _ else _) = _
  split_ifs <;> rfl

theorem packRule_withUnread (z : Bool) :
    packRule z (s.withUnread c st e) = (packRule z s).map fun t => t.withUnread c st e := by
  unfold packRule
  show (if s.opN > Config.extMax then _ else if s.opCount > Config.wordMax then _
    else if fits s.opCount s.opN then _ else _) = _
  split_ifs <;> rfl

theorem encodeRule_withUnread :
    encodeRule (s.withUnread c st e) = (encodeRule s).map fun t => t.withUnread c st e := by
  simp only [encodeRule, State.withUnread_opL]
  cases entLenError s.opL <;> rfl

theorem validatePack_withUnread (n : Nat) :
    validatePack (s.withUnread c st e) n = (validatePack s n).withUnread c st e := rfl

theorem validateCompare_withUnread (n : Nat) :
    validateCompare (s.withUnread c st e) n = (validateCompare s n).map fun t => t.withUnread c st e := by
  unfold validateCompare
  show (if extensionMatches s.mem (entropyBytes n) (bufferBytes n) then _ else _) = _
  split_ifs <;> rfl

theorem validateRule_withUnread :
    validateRule (s.withUnread c st e) = (validateRule s).map fun t => t.withUnread c st e := by
  unfold validateRule
  rw [validatePack_withUnread, validateCompare_withUnread]
  show (if s.opCount = 0 ∧ s.lev = false then _ else if s.opCount % 3 ≠ 0 then _
    else if s.opCount > Config.wordMax then _ else if (s.mem.wordEntries s.opCount).any absentEntry then _
    else if fits s.opCount (bufferBytes s.opCount) then _ else _) = _
  split_ifs <;> rfl

/-- Two completions whose rules agree but for the unread fields leave the same inputs and outputs of a command. -/
theorem complete_withUnread {r r' : Except ErrCode State} (h : r' = r.map fun t => t.withUnread c st e) :
    ∃ u u', complete s r = .next u ∧ complete (s.withUnread c st e) r' = .next u' ∧ Frozen u u' := by
  subst h
  cases r with
  | ok t => exact ⟨_, _, rfl, rfl, rfl, rfl, rfl, rfl, rfl, rfl, rfl, rfl, rfl, rfl⟩
  | error code => exact ⟨_, _, rfl, rfl, rfl, rfl, rfl, rfl, rfl, rfl, rfl, rfl, rfl, rfl⟩

/-- No command looks at CTRL, STATUS or the model's own fields. -/
theorem exec_withUnread (i : Instr) :
    ∃ u u', exec i s = .next u ∧ exec i (s.withUnread c st e) = .next u' ∧ Frozen u u' := by
  cases i with
  | nop => exact complete_withUnread s c st e (r := .ok s) rfl
  | append => exact complete_withUnread s c st e (appendRule_withUnread s c st e)
  | verify => exact complete_withUnread s c st e (verifyRule_withUnread s c st e)
  | unpack => exact complete_withUnread s c st e (unpackRule_withUnread s c st e)
  | pack z => exact complete_withUnread s c st e (packRule_withUnread s c st e z)
  | encode => exact complete_withUnread s c st e (encodeRule_withUnread s c st e)
  | validate => exact complete_withUnread s c st e (validateRule_withUnread s c st e)

end

/-- What the host leaves of a command's fields is the state up to its unread ones. -/
theorem Frozen.eq_withUnread {s t : State} (h : Frozen s t) : t = s.withUnread t.ctrl t.status t.env := by
  obtain ⟨ctrl, status, entLen, extLen, wcount, wfull, result, mem, lcmd, lev, env⟩ := t
  obtain ⟨_, rfl, rfl, rfl, rfl, rfl, rfl, rfl, rfl, _⟩ := h
  rfl

/-- The engine's step leaves the same of a command whatever the host has done beside it. -/
theorem engineMove_frozen {s t : State} (hb : s.status.busy = true) (h : Frozen s t) :
    ∃ u u', engineMove s = .next u ∧ engineMove t = .next u' ∧ Frozen u u' := by
  have ht := h.eq_withUnread
  obtain ⟨hbusy, _, _, _, _, _, _, hlcmd, _, _⟩ := h
  replace hbusy := hbusy.trans hb
  cases hd : decode s.lcmd with
  | ok i =>
    rw [engineMove_legal hb hd, engineMove_legal hbusy (hlcmd ▸ hd), ht]
    exact exec_withUnread s t.ctrl t.status t.env i
  | error reason =>
    rw [engineMove_illegal hb hd, engineMove_illegal hbusy (hlcmd ▸ hd), ht]
    exact complete_withUnread s t.ctrl t.status t.env (r := .error .illegalCommand) rfl

/-- The engine always has a next state, and neither looks at the model's own fields nor changes them. -/
theorem engineMove_withEnv (s : State) (e : Env) : ∃ u, engineMove s = .next u ∧ u.env = s.env ∧
    engineMove { s with env := e } = .next { u with env := e } := by
  by_cases hb : s.status.busy = true
  · cases hd : decode s.lcmd with
    | ok i =>
      rw [engineMove_legal hb hd, engineMove_legal (s := { s with env := e }) hb hd]
      obtain ⟨u, hu, he⟩ := exec_env i s e
      exact ⟨u, hu, (exec_writesOnly hu).env, he⟩
    | error reason =>
      rw [engineMove_illegal hb hd, engineMove_illegal (s := { s with env := e }) hb hd]
      exact ⟨_, rfl, rfl, rfl⟩
  · have hb : s.status.busy = false := by simpa using hb
    exact ⟨s, engineMove_idle hb, rfl, engineMove_idle (s := { s with env := e }) hb⟩

theorem complete_ends {s t : State} {r : Except ErrCode State} (h : complete s r = .next t) :
    t.status.busy = false ∧ t.status.done = true := by
  obtain ⟨u, hr, _⟩ | ⟨code, hr, _⟩ := complete_cases s r
  · rw [complete_ok_next hr h]
    exact ⟨rfl, rfl⟩
  · rw [complete_error_next hr h]
    exact ⟨rfl, rfl⟩

theorem exec_ends {i : Instr} {s t : State} (h : exec i s = .next t) :
    t.status.busy = false ∧ t.status.done = true := by
  cases i with
  | nop => exact complete_ends (s := s) (r := .ok s) h
  | append => exact complete_ends (r := appendRule s) h
  | verify => exact complete_ends (r := verifyRule s) h
  | unpack => exact complete_ends (r := unpackRule s) h
  | pack z => exact complete_ends (r := packRule z s) h
  | encode => exact complete_ends (r := encodeRule s) h
  | validate => exact complete_ends (r := validateRule s) h

/-- The engine's step with a command in flight is its completion (spec/43_control.md R172). -/
theorem engineMove_ends {s t : State} (hb : s.status.busy = true) (h : engineMove s = .next t) :
    t.status.busy = false ∧ t.status.done = true := by
  cases hd : decode s.lcmd with
  | ok i =>
    rw [engineMove_legal hb hd] at h
    exact exec_ends h
  | error reason =>
    rw [engineMove_illegal hb hd] at h
    exact complete_ends (r := .error .illegalCommand) h

/-! ### Runs -/

theorem run_succ {k : Nat} {s t : State} (h : Host.Core.run Sys2Proof.core (k + 1) s = .next t) :
    ∃ u, step s = .next u ∧ Host.Core.run Sys2Proof.core k u = .next t := by
  cases hs : step s with
  | next u => exact ⟨u, rfl, run_next hs ▸ h⟩
  | fault r => cases r
  | refused r =>
    have hs' : Sys2Proof.core.step s = .refused r := hs
    simp only [Host.Core.run, hs'] at h
    cases h

/-- What every step keeps holds at the end of every run. -/
theorem run_keeps {P : State → Prop} (hstep : ∀ s t, P s → step s = .next t → P t) :
    ∀ {k : Nat} {s t : State}, P s → Host.Core.run Sys2Proof.core k s = .next t → P t := by
  intro k
  induction k with
  | zero =>
    intro s t hs h
    cases h
    exact hs
  | succ k ih =>
    intro s t hs h
    obtain ⟨u, hu, hrun⟩ := run_succ h
    exact ih (hstep s u hs hu) hrun

/-- The host's turns leave a command in flight as it is; the schedule after them stands in the state they end in. -/
theorem run_hostTurns {turns : List Turn} : ∀ {k : Nat} {s : State}, s.status.busy = true →
    s.env.turns = List.replicate k Turn.host ++ turns →
      ∃ t, Frozen s t ∧ t.env.turns = turns ∧
        Host.Core.run Sys2Proof.core (k + 1) s = Host.Core.run Sys2Proof.core 1 t := by
  intro k
  induction k with
  | zero => exact fun {s} _ hturns => ⟨s, frozen_refl s, hturns, rfl⟩
  | succ k ih =>
    intro s hb hturns
    have hs : Frozen s (hostMove s.popTurn) := frozen_hostMove (s := s.popTurn) hb
    obtain ⟨t, ht, hrest, hrun⟩ := ih (hs.1.trans hb) (s := hostMove s.popTurn) (by simp [hturns, List.replicate_succ])
    refine ⟨t, frozen_trans hs ht, hrest, ?_⟩
    rw [run_next (step_host (nextTurn_cons hturns)), hrun]

/-- Settles O9: the host's turns keep all that the engine's step looks at. -/
theorem hostMovesDoNotReachACommandInFlight : Obligations.HostMovesDoNotReachACommandInFlight := by
  intro k rest s hb hturns
  obtain ⟨w, hw, hrest, hrun⟩ := run_hostTurns hb hturns
  have hpop : Frozen s w.popTurn := hw
  obtain ⟨u, t, hu, ht, hbusy, hmem, hent, hext, hwcount, hwfull, hresult, _, _, hcode⟩ := engineMove_frozen hb hpop
  have hstep : step w = .next t := (step_engine (nextTurn_cons hrest)).trans ht
  obtain ⟨hidle, _⟩ := engineMove_ends hb hu
  obtain ⟨t', ht', henv, _⟩ := engineMove_withEnv w.popTurn w.env
  obtain rfl : t = t' := by injection ht.symm.trans ht'
  refine ⟨t, u, ?_, hu, hmem, hent, hext, hwcount, hwfull, hresult, hcode, hbusy.trans hidle, ?_⟩
  · rw [hrun, run_next hstep]
    rfl
  · simp [henv, hrest]

/-! ### The completion handshake (spec/20_memory.md R64, spec/43_control.md R174, R175) -/

/-- Without a reset in the schedule it is the turn of the agent that the model prefers (log entry 4), or the schedule
names the other one. -/
theorem nextTurn_cases {s : State} (h : Turn.reset ∉ s.env.turns) :
    s.nextTurn = (if s.status.busy then .engine else .host) ∨
      (s.env.turns ≠ [] ∧ s.nextTurn = if s.status.busy then .host else .engine) := by
  cases hturns : s.env.turns with
  | nil => exact .inl (nextTurn_nil hturns)
  | cons turn rest =>
    rw [hturns] at h
    rw [nextTurn_cons hturns]
    cases turn <;> cases s.status.busy <;> simp_all

/-- A write to CMD by an idle block's host is one step, the acceptance (spec/43_control.md R170). -/
theorem step_cmdWrite {s : State} {v : Word} {rest : List HostOp} (hturn : s.nextTurn = .host)
    (hidle : s.status.busy = false) (hscript : s.env.script = .write cmdOffset v :: rest) :
    step s = .next { accept s v with env :=
      { s.env with
        script := rest, turns := s.env.turns.tail, replies := .write (busResp cmdOffset) :: s.env.replies } } := by
  have haccept : busWrite s cmdOffset v = accept s v := busWrite_of_target target_cmd (.inl hidle) v
  rw [step_write hturn hscript, haccept]

/-- An engine's turn while no command is in flight changes nothing but the schedule (spec/43_control.md R172). -/
theorem step_engine_idle {s : State} (hturn : s.nextTurn = .engine) (hidle : s.status.busy = false) :
    step s = .next s.popTurn :=
  (step_engine hturn).trans (engineMove_idle hidle)

/-- A move of the host takes a move from its script or leaves both the script and the block. -/
theorem hostMove_script (s : State) : (hostMove s).env.script.length < s.env.script.length ∨
    ((hostMove s).env.script = s.env.script ∧ hostMove s = { s with env := (hostMove s).env }) := by
  cases hscript : s.env.script with
  | nil => simp [hostMove, hscript]
  | cons op ops =>
    cases op with
    | read off => exact .inl (by simp [hostMove_of_read hscript])
    | write off w => exact .inl (by simp [hostMove_of_write hscript])
    | poll =>
      rw [hostMove_of_poll hscript]
      cases s.status.busy with
      | false => exact .inl (Nat.lt_succ_self ops.length)
      | true => exact .inr ⟨hscript, rfl⟩
    | awaitIrq => cases hi : s.irq <;> simp [hostMove, hscript, hi]

/-- Every step takes its turn from the schedule, and none puts a move into the host's script. -/
theorem step_env {s t : State} (h : step s = .next t) :
    t.env.turns = s.env.turns.tail ∧ t.env.script.length ≤ s.env.script.length := by
  cases hturn : s.nextTurn with
  | host =>
    rw [step_host hturn] at h
    cases h
    refine ⟨hostMove_turns _, ?_⟩
    obtain hlt | ⟨heq, -⟩ := hostMove_script s.popTurn
    · exact hlt.le
    · exact (congrArg List.length heq).le
  | engine =>
    rw [step_engine hturn] at h
    obtain ⟨u, hu, henv, -⟩ := engineMove_withEnv s.popTurn s.env
    obtain rfl : t = u := by injection h.symm.trans hu
    rw [henv]
    exact ⟨rfl, le_rfl⟩
  | reset =>
    rw [step_reset hturn] at h
    cases h
    exact ⟨rfl, le_rfl⟩

/-- A schedule without a reset stays one. -/
theorem reset_notMem_of_step {s t : State} (h : step s = .next t) (hreset : Turn.reset ∉ s.env.turns) :
    Turn.reset ∉ t.env.turns := by
  rw [(step_env h).1]
  exact fun hmem => hreset (List.mem_of_mem_tail hmem)

/-- A host that writes `v` to CMD in the idle state `s` and then waits, by the moves it has still to make until it is
past the wait: 3 before its write, 2 while the command is in flight, 1 after the completion, 0 past the wait. -/
inductive Handshake (s : State) (v : Word) (rest : List HostOp) : Nat → State → Prop
  | start {e : Env} (script : e.script = .write cmdOffset v :: .poll :: rest) :
      Handshake s v rest 3 { s with env := e }
  | inFlight {e : Env} (script : e.script = .poll :: rest) : Handshake s v rest 2 { accept s v with env := e }
  | completed {e : Env} {u : State} (done : engineMove (accept s v) = .next u) (script : e.script = .poll :: rest) :
      Handshake s v rest 1 { u with env := e }
  | past {e : Env} {u : State} (done : engineMove (accept s v) = .next u) (script : e.script = rest) :
      Handshake s v rest 0 { u with env := e }

section
variable {s : State} {v : Word} {rest : List HostOp}

/-- The accepted command's completion. -/
theorem engineMove_accept_ends {u : State} (h : engineMove (accept s v) = .next u) :
    u.status.busy = false ∧ u.status.done = true := engineMove_ends (s := accept s v) rfl h

/-- A step of the handshake takes a turn from the schedule, and either brings the host nearer to its end or was named
by the schedule. -/
theorem Handshake.step {n : Nat} {t : State} (hidle : s.status.busy = false) (h : Handshake s v rest (n + 1) t)
    (hreset : Turn.reset ∉ t.env.turns) :
    ∃ m t', Machine.step t = .next t' ∧ Handshake s v rest m t' ∧
      (m = n ∨ (m = n + 1 ∧ t.env.turns ≠ [])) := by
  have hturn := nextTurn_cases hreset
  cases h with
  | @start e script =>
    simp only [hidle] at hturn
    obtain hturn | ⟨hne, hturn⟩ := hturn
    · exact ⟨2, _, step_cmdWrite hturn hidle script, .inFlight rfl, .inl rfl⟩
    · exact ⟨3, _, step_engine_idle hturn hidle, .start script, .inr ⟨rfl, hne⟩⟩
  | @inFlight e script =>
    obtain hturn | ⟨hne, hturn⟩ := hturn
    · obtain ⟨u, hu, -, he⟩ := engineMove_withEnv (accept s v) { e with turns := e.turns.tail }
      exact ⟨1, _, (step_engine hturn).trans he, .completed hu script, .inl rfl⟩
    · exact ⟨2, _, step_poll hturn script, .inFlight rfl, .inr ⟨rfl, hne⟩⟩
  | @completed e u done script =>
    obtain ⟨hbusy, -⟩ := engineMove_accept_ends done
    simp only [hbusy] at hturn
    obtain hturn | ⟨hne, hturn⟩ := hturn
    · exact ⟨0, _, step_poll hturn script, .past (u := u) done (by simp [hbusy]), .inl rfl⟩
    · exact ⟨1, _, step_engine_idle hturn hbusy, .completed (u := u) done script, .inr ⟨rfl, hne⟩⟩

/-- The host comes past its wait within as many steps as it has moves and the schedule has turns. -/
theorem Handshake.ends (hidle : s.status.busy = false) : ∀ (k n : Nat) (t : State), Handshake s v rest n t →
    Turn.reset ∉ t.env.turns → t.env.turns.length + n ≤ k →
      ∃ k' ≤ k, ∃ t', Host.Core.run Sys2Proof.core k' t = .next t' ∧ t'.env.script = rest := by
  intro k
  induction k with
  | zero =>
    intro n t h _ hk
    obtain rfl : n = 0 := by omega
    cases h with
    | past done script => exact ⟨0, le_rfl, _, rfl, script⟩
  | succ k ih =>
    intro n t h hreset hk
    cases n with
    | zero =>
      cases h with
      | past done script => exact ⟨0, Nat.zero_le _, _, rfl, script⟩
    | succ n =>
      obtain ⟨m, t', hstep, h', hm⟩ := h.step hidle hreset
      have hlength : t'.env.turns.length = t.env.turns.length - 1 := by rw [(step_env hstep).1, List.length_tail]
      have hfewer : t'.env.turns.length + m ≤ k := by
        obtain rfl | ⟨rfl, hne⟩ := hm
        · omega
        · have := List.length_pos_iff.2 hne
          omega
      obtain ⟨k', hk', u, hrun, hscript⟩ := ih m t' h' (reset_notMem_of_step hstep hreset) hfewer
      exact ⟨k' + 1, by omega, u, (run_next hstep).trans hrun, hscript⟩

/-- Past its wait the host makes its next move, or it stays where it is and so does the block. -/
theorem Handshake.step_past {t t' : State} (h : Handshake s v rest 0 t) (hreset : Turn.reset ∉ t.env.turns)
    (hstep : Machine.step t = .next t') : Handshake s v rest 0 t' ∨ t'.env.script.length < rest.length := by
  cases h with
  | @past e u done script =>
    obtain ⟨hbusy, -⟩ := engineMove_accept_ends done
    have hturn := nextTurn_cases hreset
    simp only [hbusy] at hturn
    obtain hturn | ⟨_, hturn⟩ := hturn
    · rw [step_host hturn] at hstep
      cases hstep
      obtain hlt | ⟨heq, hframe⟩ := hostMove_script ({ u with env := e } : State).popTurn
      · exact .inr (hlt.trans_eq (congrArg List.length script))
      · rw [hframe]
        exact .inl (.past (u := u) done (heq.trans script))
    · rw [step_engine_idle hturn hbusy] at hstep
      cases hstep
      exact .inl (.past (u := u) done script)

/-- What holds along a run of the handshake: it is under way or just over, or the host has gone on after it. -/
def Handshake.Along (s : State) (v : Word) (rest : List HostOp) (t : State) : Prop :=
  (Turn.reset ∉ t.env.turns ∧ ∃ n, Handshake s v rest n t) ∨ t.env.script.length < rest.length

theorem Handshake.Along.step {t t' : State} (hidle : s.status.busy = false) (h : Along s v rest t)
    (hstep : Machine.step t = .next t') : Along s v rest t' := by
  obtain ⟨hreset, n, h⟩ | hlt := h
  · have hreset' := reset_notMem_of_step hstep hreset
    cases n with
    | zero => exact (h.step_past hreset hstep).imp_left fun h' => ⟨hreset', 0, h'⟩
    | succ n =>
      obtain ⟨m, u, hu, h', -⟩ := h.step hidle hreset
      obtain rfl : t' = u := by injection hstep.symm.trans hu
      exact .inl ⟨hreset', m, h'⟩
  · exact .inr ((step_env hstep).2.trans_lt hlt)

/-- A host that has just come past its wait finds the block as the completion left it. -/
theorem Handshake.Along.eq_of_script {t : State} (h : Along s v rest t) (hscript : t.env.script = rest) :
    ∃ u, engineMove (accept s v) = .next u ∧ t = { u with env := t.env } := by
  have hlength := congrArg List.length hscript
  obtain ⟨-, n, h⟩ | hlt := h
  · cases h with
    | start script =>
      simp only [script, List.length_cons] at hlength
      omega
    | inFlight script => simp [script] at hlength
    | completed done script => simp [script] at hlength
    | past done script => exact ⟨_, done, rfl⟩
  · exact absurd hlength hlt.ne

end

/-- Settles O43: the handshake ends, and all along a run it is under way, just over, or left behind. -/
theorem handshakeSeesTheCompletion : Obligations.HandshakeSeesTheCompletion := by
  intro s v rest hidle hreset hscript
  have hstart : Handshake s v rest 3 s := .start (e := s.env) hscript
  refine ⟨hstart.ends hidle _ 3 s hreset le_rfl, fun k t hrun hpast => ?_⟩
  have halong : Handshake.Along s v rest t :=
    run_keeps (fun _ _ => Handshake.Along.step hidle) (.inl ⟨hreset, 3, hstart⟩) hrun
  obtain ⟨u, hu, ht⟩ := halong.eq_of_script hpast
  obtain ⟨hbusy, hdone⟩ := engineMove_accept_ends hu
  exact ⟨u, hu, ht, ht ▸ hbusy, ht ▸ hdone⟩

end Sys2Proof.Machine

/-! ## Command words (spec/30_encoding.md R80 to R88) -/

namespace Sys2Proof

/-- Every command's word holds what its family of lemmas says (spec/30_encoding.md R80, R81). -/
theorem encode_statement (i : Instr) : Laws.Encoding.Statement i := by
  cases i with
  | nop => exact Laws.Encoding.nop
  | append => exact Laws.Encoding.append
  | verify => exact Laws.Encoding.verify
  | unpack => exact Laws.Encoding.unpack
  | pack z => exact Laws.Encoding.pack z
  | encode => exact Laws.Encoding.encode
  | validate => exact Laws.Encoding.validate

theorem decodeOp_opcodeOf (i : Instr) : decodeOp (opcodeOf i) (zFlagOf i) = .ok i := by cases i <;> rfl

theorem decode_encode (i : Instr) : decode (encode i) = .ok i := by
  obtain ⟨-, hop, hz, hrsv⟩ := encode_statement i
  rw [decode, if_pos hrsv, hop, hz, decodeOp_opcodeOf]

/-- A word selects a command exactly when it is the command's own (spec/30_encoding.md R81): its three fields are it. -/
theorem decode_eq_ok_iff {v : Word} {i : Instr} : decode v = .ok i ↔ v = encode i := by
  constructor
  · intro h
    obtain ⟨hrsv, hop, hz⟩ := decode_fields h
    obtain ⟨-, hop', hz', hrsv'⟩ := encode_statement i
    exact word_eq_of_fields (hrsv.trans hrsv'.symm) (hop.trans hop'.symm) (hz.trans hz'.symm)
  · rintro rfl
    exact decode_encode i

/-- Settles O2: a command's word holds the fields its decoding tests, and no other word holds them. -/
theorem decodeAndEncodeAgree : Obligations.DecodeAndEncodeAgree :=
  ⟨fun i _ => decode_encode i, fun _ _ => decode_eq_ok_iff.1, by decide⟩

/-- Settles O1: the legal words are the commands' own, and each of the others fails another test of the decoder. -/
theorem decodesTheTableWords : Obligations.DecodesTheTableWords :=
  ⟨decode_encode .nop, decode_encode .append, decode_encode .verify, decode_encode .unpack, decode_encode (.pack false),
    decode_encode (.pack true), decode_encode .encode, decode_encode .validate, by decide⟩

/-- A command without a `z` form is selected exactly when the flag is 0 (spec/30_encoding.md R82). -/
theorem exists_plainCommand_ok_iff (z : Bool) (i : Instr) : (∃ j, plainCommand z i = .ok j) ↔ z = false := by
  cases z <;> simp [plainCommand]

/-- The operation codes up to 6 are the commands', and the flag may be set with PACK's alone (spec/30_encoding.md R82). -/
theorem exists_decodeOp_ok_iff (op : BitVec 8) (z : Bool) :
    (∃ i, decodeOp op z = .ok i) ↔ op.toNat ≤ 0x06 ∧ (z = false ∨ op = 0x04#8) := by
  rw [BitVec.toNat_eq]
  unfold decodeOp
  split
  case h_8 h0 h1 h2 h3 h4 h5 h6 =>
    simp only [imp_false] at h0 h1 h2 h3 h4 h5 h6
    have hop : ¬op.toNat ≤ 6 := by omega
    simp [hop]
  all_goals
    rename_i hop
    simp [hop, exists_plainCommand_ok_iff]

theorem exists_decode_ok_iff_fields (v : Word) : (∃ i, decode v = .ok i) ↔
    rsvField v = 0#23 ∧ (opField v).toNat ≤ 0x06 ∧ (zField v = false ∨ opField v = 0x04#8) := by
  unfold decode
  split
  · rename_i hrsv
    rw [exists_decodeOp_ok_iff, and_iff_right hrsv]
  · rename_i hrsv
    simp [hrsv]

theorem exists_decode_ok_iff_mem (v : Word) : (∃ i, decode v = .ok i) ↔
    v ∈ [0x00000000#32, 0x00000001#32, 0x00000002#32, 0x00000003#32, 0x00000004#32, 0x00000005#32, 0x00000006#32,
      0x00000104#32] := by
  simp only [decode_eq_ok_iff]
  constructor
  · rintro ⟨i, rfl⟩
    cases i with
    | pack z => cases z <;> decide
    | _ => decide
  · simp only [List.mem_cons, List.not_mem_nil, or_false]
    rintro (rfl | rfl | rfl | rfl | rfl | rfl | rfl | rfl)
    · exact ⟨.nop, rfl⟩
    · exact ⟨.append, rfl⟩
    · exact ⟨.verify, rfl⟩
    · exact ⟨.unpack, rfl⟩
    · exact ⟨.pack false, rfl⟩
    · exact ⟨.encode, rfl⟩
    · exact ⟨.validate, rfl⟩
    · exact ⟨.pack true, rfl⟩

end Sys2Proof

namespace Sys2Proof.Machine

/-- Settles O3: the decoder's tests are those of R82, its legal words are the commands' own, and a word that is not
legal completes by R173. -/
theorem illegalWordsAreAcceptedAndFail : Obligations.IllegalWordsAreAcceptedAndFail := by
  intro v
  refine ⟨exists_decode_ok_iff_fields v, exists_decode_ok_iff_mem v, fun s hidle => ?_, fun s hbusy hlcmd hillegal => ?_⟩
  · exact busWrite_of_target target_cmd (.inl hidle) v
  · cases hd : decode s.lcmd with
    | ok i => exact absurd (hlcmd ▸ hd) (hillegal i)
    | error e => exact engineMove_illegal hbusy hd

/-! ## The codes of STATUS and RESULT (spec/30_encoding.md R85, R86) -/

theorem ErrCode.code_le (c : ErrCode) : c.code.toNat ≤ 4 := by cases c <;> decide

theorem VReason.code_le (r : VReason) : r.code.toNat ≤ 6 := by cases r <;> decide

/-- Settles O44: a state holds the codes by name, and every name has one of the numbers listed (log entry 14). -/
theorem codesAreNumberedAsListed : Obligations.CodesAreNumberedAsListed :=
  ⟨rfl, rfl, rfl, rfl, rfl, rfl, rfl, rfl, rfl, rfl, rfl, rfl,
    fun s => ⟨s.status.errcode.code_le, s.result.vreason.code_le⟩⟩

/-! ## The waits of a host (spec/30_encoding.md R90, spec/43_control.md R175) -/

theorem readData_statusOffset (s : State) : readData s statusOffset = s.status.toWord :=
  readData_of_target target_status (.inr rfl)

theorem busResp_statusOffset : busResp statusOffset = .okay := busResp_of_target target_status

/-- A script put where it stands already changes nothing. -/
theorem State.withScript_script {s : State} {ops : List HostOp} (h : s.env.script = ops) : s.withScript ops = s := by
  subst h
  rfl

/-- A poll is a read of STATUS that leaves itself in the script while BUSY is 1 (spec/30_encoding.md R90). -/
theorem hostMove_of_poll_eq_hostRead {s : State} {rest : List HostOp} (h : s.env.script = .poll :: rest) :
    hostMove s = hostRead (s.withScript (if s.status.busy then .poll :: rest else rest)) statusOffset := by
  rw [hostMove_of_poll h]
  cases s.status.busy with
  | false => rfl
  | true => exact congrArg (hostRead · statusOffset) (State.withScript_script h).symm

/-- A wait for the interrupt leaves itself in the script while `irq` is 0 (spec/43_control.md R175). -/
theorem hostMove_of_awaitIrq {s : State} {rest : List HostOp} (h : s.env.script = .awaitIrq :: rest) :
    hostMove s = s.withScript (if s.irq then rest else .awaitIrq :: rest) := by
  simp only [hostMove, h]
  cases s.irq with
  | false => exact (State.withScript_script h).symm
  | true => rfl

/-- Settles O41: a poll reads STATUS with OKAY and touches nothing but `env`, and the other wait but the script. -/
theorem waitEndsWhenBusyIsClear : Obligations.WaitEndsWhenBusyIsClear := by
  refine ⟨fun s rest h => ?_, fun s rest h => hostMove_of_awaitIrq h⟩
  rw [hostMove_of_poll_eq_hostRead h]
  refine ⟨?_, rfl, rfl⟩
  rw [hostRead_env, readData_statusOffset, busResp_statusOffset]
  rfl

end Sys2Proof.Machine

/-! ## What a command's outputs depend on (spec/30_encoding.md R83) -/

namespace Sys2Proof.Machine

/-- Two answers of a command's rule agree: both raise the same error, or both leave the same outputs. -/
inductive AnswersAgree (i : Instr) : Except ErrCode State → Except ErrCode State → Prop
  | ok {t₁ t₂ : State} (outputs : OutputsAgree i t₁ t₂) : AnswersAgree i (.ok t₁) (.ok t₂)
  | error {code : ErrCode} (raised : code ≠ .noError) : AnswersAgree i (.error code) (.error code)

/-- STATUS is no output of a command. -/
theorem OutputsAgree.withStatus {i : Instr} {t₁ t₂ : State} (h : OutputsAgree i t₁ t₂) (st₁ st₂ : Status) :
    OutputsAgree i { t₁ with status := st₁ } { t₂ with status := st₂ } := by
  cases i <;> exact h

theorem complete_agree {i : Instr} {s₁ s₂ t₁ t₂ : State} {r₁ r₂ : Except ErrCode State} (hr : AnswersAgree i r₁ r₂)
    (h₁ : complete s₁ r₁ = .next t₁) (h₂ : complete s₂ r₂ = .next t₂) :
    t₁.status.errcode = t₂.status.errcode ∧ (t₁.status.errcode = .noError → OutputsAgree i t₁ t₂) := by
  cases hr with
  | ok outputs =>
    obtain rfl := complete_ok_next rfl h₁
    obtain rfl := complete_ok_next rfl h₂
    exact ⟨rfl, fun _ => outputs.withStatus _ _⟩
  | error raised =>
    obtain rfl := complete_error_next rfl h₁
    obtain rfl := complete_error_next rfl h₂
    exact ⟨rfl, fun hnone => absurd hnone raised⟩

/-! ### The operands that the commands share -/

theorem toNat_extLenOf_le (n : Nat) : (extLenOf n).toNat ≤ n := Nat.mod_le _ _

theorem toNat_countOf_le (n : Nat) : (countOf n).toNat ≤ n := Nat.mod_le _ _

theorem entLenError_ne_noError {l : Nat} {code : ErrCode} (h : entLenError l = some code) : code ≠ .noError := by
  rintro rfl
  unfold entLenError at h
  split_ifs at h <;> cases h

/-- The extended buffer that APPEND and ENCODE leave depends on its entropy alone. -/
theorem Memory.data_extended_congr {m₁ m₂ : Memory} {l : Nat} (h : ∀ a < l, m₁.data a = m₂.data a) :
    ∀ a < l + cksumBytes l, (m₁.writeData l (cks m₁ l)).data a = (m₂.writeData l (cks m₂ l)).data a := by
  intro a ha
  rw [Memory.data_writeData, Memory.data_writeData, cks_congr h, length_cks]
  by_cases hl : l ≤ a
  · rw [if_pos ⟨hl, ha⟩, if_pos ⟨hl, ha⟩]
  · rw [if_neg (by omega), if_neg (by omega), h a (by omega)]

theorem extensionMatches_congr {m₁ m₂ : Memory} {l n : Nat} (h : ∀ a < max l n, m₁.data a = m₂.data a) :
    extensionMatches m₁ l n = extensionMatches m₂ l n := by
  have hl : ∀ a < l, m₁.data a = m₂.data a := fun a ha => h a (lt_max_of_lt_left ha)
  have hn : ∀ a < n, m₁.data a = m₂.data a := fun a ha => h a (lt_max_of_lt_right ha)
  unfold extensionMatches extension
  rw [cks_congr hl, Memory.dataBytes_congr hl, Memory.dataBytes_congr hn]

/-- The buffer that PACK and VALIDATE leave depends on the entries alone where it is zeroed first. -/
theorem data_packedMem_congr {z : Bool} {m₁ m₂ : Memory} {cnt n : Nat} (hword : ∀ j < cnt, m₁.word j = m₂.word j)
    (hdata : z = false → ∀ a < n, m₁.data a = m₂.data a) :
    ∀ a < n, (packedMem z m₁ cnt n).data a = (packedMem z m₂ cnt n).data a := by
  intro a ha
  refine data_eq_of_dbit fun p hp => ?_
  rw [dbit_packedMem, dbit_packedMem, decide_eq_false (show ¬8 * n ≤ p by omega)]
  congr 1
  · by_cases hcnt : p < 11 * cnt
    · rw [hword _ (by omega)]
    · rw [decide_eq_false hcnt, Bool.false_and, Bool.false_and]
  · cases z with
    | false => rw [dbit_congr (hdata rfl _ (by omega))]
    | true => rfl

/-! ### Command by command -/

theorem appendRule_agree {s₁ s₂ : State} (h : InputsAgree .append s₁ s₂) :
    AnswersAgree .append (appendRule s₁) (appendRule s₂) := by
  obtain ⟨hl, hdata⟩ := h
  simp only [appendRule, State.opL, ← hl]
  cases hent : entLenError s₁.entLen.toNat with
  | some code => exact .error (entLenError_ne_noError hent)
  | none =>
    exact .ok ⟨rfl, fun a _ ha => Memory.data_extended_congr hdata a (ha.trans_le (toNat_extLenOf_le _))⟩

theorem verifyRule_agree {s₁ s₂ : State} (h : InputsAgree .verify s₁ s₂) :
    AnswersAgree .verify (verifyRule s₁) (verifyRule s₂) := by
  obtain ⟨hl, hn, hdata⟩ := h
  simp only [verifyRule, State.opL, State.opN, ← hl, ← hn]
  cases hent : entLenError s₁.entLen.toNat with
  | some code => exact .error (entLenError_ne_noError hent)
  | none =>
    simp only
    split
    · exact .error nofun
    · exact .ok (extensionMatches_congr hdata)

theorem unpackRule_agree {s₁ s₂ : State} (h : InputsAgree .unpack s₁ s₂) :
    AnswersAgree .unpack (unpackRule s₁) (unpackRule s₂) := by
  obtain ⟨hn, hdata⟩ := h
  simp only [unpackRule, State.opN, ← hn]
  split
  · exact .error nofun
  · refine .ok ⟨rfl, rfl, fun j hj => ?_⟩
    have hj' := hj.trans_le (toNat_countOf_le _)
    show (Memory.writeWords _ 0 _).word j = (Memory.writeWords _ 0 _).word j
    rw [readGroups_congr hdata, Memory.word_writeWords, Memory.word_writeWords, length_readGroups,
      if_pos ⟨by omega, by omega⟩, if_pos ⟨by omega, by omega⟩]

theorem packRule_agree {z : Bool} {s₁ s₂ : State} (h : InputsAgree (.pack z) s₁ s₂) :
    AnswersAgree (.pack z) (packRule z s₁) (packRule z s₂) := by
  obtain ⟨hn, hcnt, hword, hdata⟩ := h
  simp only [packRule, State.opN, State.opCount, ← hn, ← hcnt]
  split
  · exact .error nofun
  split
  · exact .error nofun
  split
  · exact .ok (data_packedMem_congr hword hdata)
  · exact .error nofun

theorem encodeRule_agree {s₁ s₂ : State} (h : InputsAgree .encode s₁ s₂) :
    AnswersAgree .encode (encodeRule s₁) (encodeRule s₂) := by
  obtain ⟨hl, hdata⟩ := h
  simp only [encodeRule, State.opL, ← hl]
  cases hent : entLenError s₁.entLen.toNat with
  | some code => exact .error (entLenError_ne_noError hent)
  | none =>
    obtain ⟨-, hle⟩ := (entLenError_none_iff _).1 hent
    have hbuffer := Memory.data_extended_congr hdata
    refine .ok ⟨rfl, rfl, rfl, fun a _ ha => ?_, fun j hj => ?_⟩
    · have ha' := ha.trans_le (toNat_extLenOf_le _)
      have hmax := ha'.trans_le (length_extended_le hle)
      rw [data_encodeWrites _ _ hmax, data_encodeWrites _ _ hmax, hbuffer a ha']
    · have hj' := hj.trans_le (toNat_countOf_le _)
      rw [word_encodeWrites _ hj', word_encodeWrites _ hj', rgroup_congr hbuffer]

/-- Two answers of VALIDATE agree where they give the same verdict, if they also leave the same buffer whenever it was
reached (spec/42_mnemonic.md R142). -/
theorem answer_agree {s₁ s₂ : State} {v : Bool} {r : VReason}
    (hpack : r = .ok ∨ r = .checksum → s₁.entLen = s₂.entLen ∧ s₁.extLen = s₂.extLen ∧
      ∀ a < s₁.extLen.toNat, s₁.mem.data a = s₂.mem.data a) :
    AnswersAgree .validate (answer v r s₁) (answer v r s₂) := .ok ⟨rfl, rfl, hpack⟩

/-- The comparison of VALIDATE sees what its pack step wrote, and that comes from the entries alone. -/
theorem validateCompare_agree {s₁ s₂ : State} {n : Nat} (hword : ∀ j < n, s₁.mem.word j = s₂.mem.word j) :
    AnswersAgree .validate (validateCompare (validatePack s₁ n) n) (validateCompare (validatePack s₂ n) n) := by
  have hdata : ∀ a < bufferBytes n, (validatePack s₁ n).mem.data a = (validatePack s₂ n).mem.data a :=
    data_packedMem_congr (z := true) hword nofun
  have hle : entropyBytes n ≤ bufferBytes n := by
    rw [entropyBytes_eq, bufferBytes_eq]
    omega
  unfold validateCompare
  rw [extensionMatches_congr fun a ha => hdata a (ha.trans_le (max_le hle le_rfl))]
  have hpacked (v : Bool) (r : VReason) :
      AnswersAgree .validate (answer v r (validatePack s₁ n)) (answer v r (validatePack s₂ n)) :=
    answer_agree fun _ => ⟨rfl, rfl, fun a ha => hdata a (ha.trans_le (toNat_extLenOf_le _))⟩
  split
  · exact hpacked true .ok
  · exact hpacked false .checksum

theorem validateRule_agree {s₁ s₂ : State} (h : InputsAgree .validate s₁ s₂) :
    AnswersAgree .validate (validateRule s₁) (validateRule s₂) := by
  obtain ⟨hcnt, hlev, hword⟩ := h
  simp only [validateRule, State.opCount, ← hcnt, ← hlev, ← Memory.wordEntries_congr hword]
  split
  · exact answer_agree nofun
  split
  · exact answer_agree nofun
  split
  · exact answer_agree nofun
  split
  · exact answer_agree nofun
  split
  · exact validateCompare_agree hword
  · exact answer_agree nofun

/-- Settles O28: the checks of a command see its operands alone, and so do its writes. -/
theorem commandsReadOnlyTheirOperands : Obligations.CommandsReadOnlyTheirOperands := by
  intro i s₁ s₂ t₁ t₂ hin h₁ h₂
  cases i with
  | nop => exact complete_agree (s₁ := s₁) (s₂ := s₂) (.ok trivial) h₁ h₂
  | append => exact complete_agree (appendRule_agree hin) h₁ h₂
  | verify => exact complete_agree (verifyRule_agree hin) h₁ h₂
  | unpack => exact complete_agree (unpackRule_agree hin) h₁ h₂
  | pack z => exact complete_agree (packRule_agree hin) h₁ h₂
  | encode => exact complete_agree (encodeRule_agree hin) h₁ h₂
  | validate => exact complete_agree (validateRule_agree hin) h₁ h₂

end Sys2Proof.Machine

/-! ## LOADD and LOADW (spec/30_encoding.md R90) -/

namespace Sys2Proof.Machine

/-! ### Runs of bus words -/

/-- The host's writes of `n` bus words at consecutive offsets from `a` on. -/
def laneWrites (a : Nat) (w : Nat → Word) (n : Nat) : List HostOp :=
  (List.range n).map fun k => .write (BitVec.ofNat 14 (a + 4 * k)) (w k)

theorem laneWrites_succ (a : Nat) (w : Nat → Word) (n : Nat) :
    laneWrites a w (n + 1) = .write (BitVec.ofNat 14 a) (w 0) :: laneWrites (a + 4) (fun k => w (k + 1)) n := by
  simp only [laneWrites, List.range_succ_eq_map, List.map_cons, List.map_map, Function.comp_def, Nat.mul_zero,
    Nat.add_zero, Nat.mul_succ, Nat.add_assoc, Nat.add_comm 4]

/-- While idle, a bus write at this offset stores its word in a RAM window and does nothing else. -/
def StoresLanes (a : Nat) : Prop :=
  ∀ (s : State) (v : Word), s.status.busy = false →
    busWrite s (BitVec.ofNat 14 a) v = { s with mem := s.mem.writeLanes a v }

theorem storesLanes_data {j : Nat} (h : j < 264) : StoresLanes (dataBase + 4 * j) :=
  fun _ v hidle => busWrite_of_target (target_data h) (.inl hidle) v

theorem storesLanes_word {j : Nat} (h : j < 384) : StoresLanes (wordBase + 4 * j) :=
  fun _ v hidle => busWrite_of_target (target_word h) (.inl hidle) v

/-- From `s` to `t` the host has written `n` bus words `w` from the RAM offset `a` on, and nothing else, and its script
is over. -/
structure Stored (a : Nat) (w : Nat → Word) (n : Nat) (s t : State) : Prop where
  script : t.env.script = []
  block : t = { s with mem := t.mem, env := t.env }
  lanes : ∀ k < n, t.mem.readLanes (a + 4 * k) = w k
  frame : ∀ b, ¬(a ≤ b ∧ b < a + 4 * n) → t.mem.read b = s.mem.read b

/-- A word read depends on its four bytes. -/
theorem Memory.readLanes_congr {m₁ m₂ : Memory} {a : Nat} (h : ∀ b, a ≤ b → b < a + 4 → m₁.read b = m₂.read b) :
    m₁.readLanes a = m₂.readLanes a := by
  unfold Memory.readLanes
  rw [h _ (by omega) (by omega), h _ (by omega) (by omega), h _ (by omega) (by omega), h _ (by omega) (by omega)]

theorem Stored.cons {a : Nat} {w : Nat → Word} {n : Nat} {s u t : State}
    (hu : u = { s with mem := s.mem.writeLanes a (w 0), env := u.env }) (h : Stored (a + 4) (fun k => w (k + 1)) n u t) :
    Stored a w (n + 1) s t where
  script := h.script
  block := by
    have hblock := h.block
    rw [hu] at hblock
    exact hblock
  lanes k hk := by
    cases k with
    | zero =>
      rw [← s.mem.readLanes_writeLanes a (w 0)]
      refine Memory.readLanes_congr fun b hle hlt => ?_
      rw [h.frame b (by omega), hu]
    | succ k =>
      rw [Nat.mul_succ, Nat.add_comm _ 4, ← Nat.add_assoc]
      exact h.lanes k (by omega)
  frame b hb := by
    rw [h.frame b (by omega), hu]
    exact Memory.read_writeLanes_other _ (by omega) _

/-- Where the schedule is empty, the host of an idle block makes one write to a RAM window in one step (log entries 3
and 4). -/
theorem step_laneWrite {s : State} {a : Nat} {v : Word} {rest : List HostOp} (hidle : s.status.busy = false)
    (hturns : s.env.turns = []) (hscript : s.env.script = .write (BitVec.ofNat 14 a) v :: rest) (hram : StoresLanes a) :
    ∃ u, step s = .next u ∧ u = { s with mem := s.mem.writeLanes a v, env := u.env } ∧ u.env.turns = [] ∧
      u.env.script = rest := by
  have hturn : s.nextTurn = .host := by rw [nextTurn_nil hturns, hidle]; rfl
  refine ⟨_, step_write hturn hscript, ?_, congrArg List.tail hturns, rfl⟩
  rw [hram s v hidle]

/-- A run of RAM writes takes one step a word. -/
theorem run_laneWrites : ∀ {n a : Nat} {w : Nat → Word} {s : State}, s.status.busy = false → s.env.turns = [] →
    s.env.script = laneWrites a w n → (∀ k < n, StoresLanes (a + 4 * k)) →
      ∃ t, Host.Core.run Sys2Proof.core n s = .next t ∧ Stored a w n s t := by
  intro n
  induction n with
  | zero => exact fun {a w s} _ _ hscript _ => ⟨s, rfl, hscript, rfl, nofun, fun _ _ => rfl⟩
  | succ n ih =>
    intro a w s hidle hturns hscript hram
    rw [laneWrites_succ] at hscript
    obtain ⟨u, hstep, hu, hturns', hscript'⟩ := step_laneWrite hidle hturns hscript (hram 0 (by omega))
    have hidle' : u.status.busy = false := by rw [hu]; exact hidle
    have hram' (k : Nat) (hk : k < n) : StoresLanes (a + 4 + 4 * k) := by
      rw [Nat.add_assoc, Nat.add_comm 4, ← Nat.mul_succ]
      exact hram (k + 1) (by omega)
    obtain ⟨t, hrun, hstored⟩ := ih hidle' hturns' hscript' hram'
    exact ⟨t, (run_next hstep).trans hrun, .cons hu hstored⟩

/-! ### The words of LOADD and LOADW -/

/-- Four bytes in the lanes of a bus word, the first in bits 7:0. -/
def laneWord (g : Nat → Byte) : Word := g 3 ++ g 2 ++ g 1 ++ g 0

theorem bitVec_append_inj {m n : Nat} {x x' : BitVec m} {y y' : BitVec n} (h : x ++ y = x' ++ y') : x = x' ∧ y = y' := by
  constructor
  · simpa only [BitVec.extractLsb'_append_eq_left] using congrArg (BitVec.extractLsb' n m) h
  · simpa only [BitVec.extractLsb'_append_eq_right] using congrArg (BitVec.extractLsb' 0 n) h

theorem laneWord_inj {g g' : Nat → Byte} (h : laneWord g = laneWord g') {r : Nat} (hr : r < 4) : g r = g' r := by
  obtain ⟨h, h0⟩ := bitVec_append_inj h
  obtain ⟨h, h1⟩ := bitVec_append_inj h
  obtain ⟨h3, h2⟩ := bitVec_append_inj h
  interval_cases r
  · exact h0
  · exact h1
  · exact h2
  · exact h3

/-- The bus words of a byte string: four bytes a word, missing bytes 0 (spec/30_encoding.md R90). -/
def dataWords (bs : List Byte) (k : Nat) : Word := laneWord fun r => bs.getD (4 * k + r) 0x00#8

/-- The bus words of a list of entries: two entries a word, a missing one 0 (spec/30_encoding.md R90). -/
def entryWords (es : List Entry) (k : Nat) : Word := es.getD (2 * k + 1) 0x0000#16 ++ es.getD (2 * k) 0x0000#16

theorem dataWords_drop (bs : List Byte) : dataWords (bs.drop 4) = fun k => dataWords bs (k + 1) := by
  funext k
  simp [dataWords, laneWord, List.getD_eq_getElem?_getD, Nat.mul_succ, Nat.add_assoc, Nat.add_comm 4]

theorem loadDataOps_eq : ∀ (fuel a : Nat) (bs : List Byte), bs.length ≤ fuel →
    loadDataOps fuel a bs = laneWrites a (dataWords bs) ((bs.length + 3) / 4) := by
  intro fuel
  induction fuel with
  | zero =>
    intro a bs hfuel
    obtain rfl := List.length_eq_zero_iff.1 (Nat.le_zero.1 hfuel)
    rfl
  | succ fuel ih =>
    intro a bs hfuel
    cases bs with
    | nil => rfl
    | cons b bs =>
      have hlength : ((b :: bs).length + 3) / 4 = ((bs.drop 3).length + 3) / 4 + 1 := by
        simp only [List.length_cons, List.length_drop]
        omega
      simp only [List.length_cons] at hfuel
      rw [hlength, laneWrites_succ, ← dataWords_drop, loadDataOps, ih _ _ (by rw [List.length_drop]; omega)]
      rfl

theorem entryWords_drop (es : List Entry) : entryWords (es.drop 2) = fun k => entryWords es (k + 1) := by
  funext k
  simp [entryWords, List.getD_eq_getElem?_getD, Nat.mul_succ, Nat.add_assoc, Nat.add_comm 2]

theorem loadWordOps_eq : ∀ (fuel a : Nat) (es : List Entry), es.length ≤ fuel →
    loadWordOps fuel a es = laneWrites a (entryWords es) ((es.length + 1) / 2) := by
  intro fuel
  induction fuel with
  | zero =>
    intro a es hfuel
    obtain rfl := List.length_eq_zero_iff.1 (Nat.le_zero.1 hfuel)
    rfl
  | succ fuel ih =>
    intro a es hfuel
    cases es with
    | nil => rfl
    | cons e es =>
      have hlength : ((e :: es).length + 1) / 2 = ((es.drop 1).length + 1) / 2 + 1 := by
        simp only [List.length_cons, List.length_drop]
        omega
      simp only [List.length_cons] at hfuel
      rw [hlength, laneWrites_succ, ← entryWords_drop, loadWordOps, ih _ _ (by rw [List.length_drop]; omega)]
      rfl

theorem expandStmt_loadd (i : Nat) (bs : List Byte) : expandStmt (.loadd i bs) =
    laneWrites (dataBase + i) (dataWords bs) ((bs.length + 3) / 4) := loadDataOps_eq _ _ bs le_rfl

theorem expandStmt_loadw (i : Nat) (es : List Entry) : expandStmt (.loadw i es) =
    laneWrites (wordBase + 2 * i) (entryWords es) ((es.length + 1) / 2) := loadWordOps_eq _ _ es le_rfl

/-- The bytes of a run of words written to the DATA window. -/
theorem Stored.data {i : Nat} {bs : List Byte} {n : Nat} {s t : State}
    (h : Stored (dataBase + i) (dataWords bs) n s t) {k : Nat} (hk : k < 4 * n) :
    t.mem.data (i + k) = bs.getD k 0x00#8 := by
  have hword : laneWord (fun r => t.mem.read (dataBase + i + 4 * (k / 4) + r)) = dataWords bs (k / 4) :=
    h.lanes (k / 4) (by omega)
  have hlane := laneWord_inj hword (r := k % 4) (by omega)
  rwa [Nat.add_assoc, Nat.div_add_mod, Nat.add_assoc] at hlane

/-- The entries of a run of words written to the WORD window. -/
theorem Stored.word {j : Nat} {es : List Entry} {n : Nat} {s t : State}
    (h : Stored (wordBase + 2 * (2 * j)) (entryWords es) n s t) {k : Nat} (hk : k < 2 * n) :
    t.mem.word (2 * j + k) = es.getD k 0x0000#16 := by
  have hword := h.lanes (k / 2) (by omega)
  rw [show wordBase + 2 * (2 * j) + 4 * (k / 2) = wordBase + 4 * (j + k / 2) by omega, Memory.readLanes_word] at hword
  obtain ⟨hodd, heven⟩ := bitVec_append_inj hword
  obtain hk2 | hk2 : 2 * (k / 2) = k ∨ 2 * (k / 2) + 1 = k := by omega
  · rwa [Nat.mul_add, hk2] at heven
  · rwa [Nat.mul_add, Nat.add_assoc, hk2] at hodd

/-- Settles O42: each statement is a run of RAM writes, whose words hold the list and zeros after it. -/
theorem loadStatementsFillTheRams : Obligations.LoadStatementsFillTheRams := by
  refine ⟨fun s i bs hidle hturns halign hfit => ?_, fun s i es hidle hturns halign hfit => ?_⟩
  · obtain ⟨j, rfl⟩ := Nat.dvd_of_mod_eq_zero halign
    obtain ⟨t, hrun, hstored⟩ := run_laneWrites (s := s.withScript (expandStmt (.loadd (4 * j) bs))) hidle hturns
      (expandStmt_loadd (4 * j) bs) fun k hk => by
        rw [Nat.add_assoc, ← Nat.mul_add]
        exact storesLanes_data (by omega)
    exact ⟨t, hrun, hstored.script, hstored.block, fun k => hstored.data, hstored.frame⟩
  · obtain ⟨j, rfl⟩ := Nat.dvd_of_mod_eq_zero halign
    obtain ⟨t, hrun, hstored⟩ := run_laneWrites (s := s.withScript (expandStmt (.loadw (2 * j) es))) hidle hturns
      (expandStmt_loadw (2 * j) es) fun k hk => by
        rw [show wordBase + 2 * (2 * j) + 4 * k = wordBase + 4 * (j + k) by omega]
        exact storesLanes_word (by omega)
    exact ⟨t, hrun, hstored.script, hstored.block, fun k => hstored.word, hstored.frame⟩

end Sys2Proof.Machine

/-! ## What every step keeps (spec/20_memory.md R55, spec/30_encoding.md R86, spec/40_bitpacker.md R102,
spec/42_mnemonic.md R145) -/

namespace Sys2Proof.Machine

/-! ### The engine's step -/

theorem appendRule_keeps_inv {s u : State} (hs : s.Inv) (h : appendRule s = .ok u) : u.Inv := by
  obtain ⟨hmem, hrest⟩ := hs
  obtain ⟨_, hl, e⟩ | ⟨_, e⟩ | ⟨_, _, e⟩ := appendRule_cases s <;> rw [e] at h <;> cases h
  exact ⟨Memory.wf_appended hmem hl, hrest⟩

theorem verifyRule_keeps_inv {s u : State} (hs : s.Inv) (h : verifyRule s = .ok u) : u.Inv := by
  obtain ⟨_, _, _, e⟩ | ⟨_, e⟩ | ⟨_, _, e⟩ := verifyRule_cases s <;> rw [e] at h <;> cases h
  exact hs

/-- The groups of a buffer that fits the DATA RAM fit the WORD RAM, and so does their count. -/
theorem unpackRule_keeps_inv {s u : State} (hs : s.Inv) (h : unpackRule s = .ok u) : u.Inv := by
  obtain ⟨hmem, _, hresult⟩ := hs
  obtain ⟨hn, e⟩ | ⟨_, e⟩ := unpackRule_cases s <;> rw [e] at h <;> cases h
  have hwf : (unpacked s).mem.wf = true := Memory.wf_writeWords _ hmem (by simpa using groupCount_le hn)
  exact ⟨hwf, (toNat_countOf_le _).trans (fullCount_le hn), hresult⟩

theorem packRule_keeps_inv {z : Bool} {s u : State} (hs : s.Inv) (h : packRule z s = .ok u) : u.Inv := by
  obtain ⟨hmem, hrest⟩ := hs
  obtain ⟨hn, hc, _, e⟩ | ⟨_, e⟩ | ⟨_, _, _, e⟩ := packRule_cases z s <;> rw [e] at h <;> cases h
  exact ⟨Memory.wf_packedMem hmem hn hc, hrest⟩

theorem encodeRule_keeps_inv {s u : State} (hs : s.Inv) (h : encodeRule s = .ok u) : u.Inv := by
  obtain ⟨hmem, _, hresult⟩ := hs
  obtain ⟨_, hl, e⟩ | ⟨_, e⟩ | ⟨_, _, e⟩ := encodeRule_cases s <;> rw [e] at h <;> cases h
  have hF : fullCount (s.opL + cksumBytes s.opL) ≤ 768 := fullCount_le (length_extended_le hl)
  have hwf : (encodeWrites s s.opL).mem.wf = true :=
    Memory.wf_writeWords _ (Memory.wf_appended hmem hl) (by simpa using hF)
  exact ⟨hwf, (toNat_countOf_le _).trans hF, hresult⟩

/-- The pack step of VALIDATE writes inside the DATA RAM (spec/42_mnemonic.md R143). -/
theorem validatePack_keeps_inv {s : State} {n : Nat} (hs : s.Inv) (h3 : n % 3 = 0) (hn : n ≤ 768) :
    (validatePack s n).Inv := by
  obtain ⟨hmem, hrest⟩ := hs
  obtain ⟨_, _, hbuffer, _⟩ := validate_sizes h3 hn
  exact ⟨Memory.wf_packedMem (z := true) hmem hbuffer hn, hrest⟩

/-- What an answer of VALIDATE must be for the two clauses on RESULT. -/
theorem answer_keeps_inv {s u : State} {v : Bool} {r : VReason} (hs : s.Inv) (h : answer v r s = .ok u)
    (hr : r ≠ .overflow) (hv : v = true → r = .ok) : u.Inv := by
  obtain ⟨hmem, hfull, _⟩ := hs
  cases h
  exact ⟨hmem, hfull, hr, hv⟩

theorem validateCompare_keeps_inv {s u : State} {n : Nat} (hs : s.Inv) (h : validateCompare s n = .ok u) : u.Inv := by
  obtain ⟨_, e⟩ | ⟨_, e⟩ := validateCompare_cases s n <;> rw [e] at h
  · exact answer_keeps_inv hs h nofun fun _ => rfl
  · exact answer_keeps_inv hs h nofun nofun

theorem validateRule_keeps_inv {s u : State} (hs : s.Inv) (h : validateRule s = .ok u) : u.Inv := by
  obtain ⟨_, _, e⟩ | ⟨_, e⟩ | ⟨_, _, e⟩ | ⟨_, _, _, e⟩ | ⟨h3, hn, _, _, e⟩ := validateRule_cases s <;> rw [e] at h
  case inr.inr.inr.inr => exact validateCompare_keeps_inv (validatePack_keeps_inv hs h3 hn) h
  all_goals exact answer_keeps_inv hs h nofun nofun

/-- A completion writes STATUS, of which the invariant says nothing, and an error writes nothing else. -/
theorem complete_keeps_inv {s t : State} {r : Except ErrCode State} (hs : s.Inv) (hr : ∀ u, r = .ok u → u.Inv)
    (h : complete s r = .next t) : t.Inv := by
  cases r with
  | ok u =>
    obtain rfl := complete_ok_next rfl h
    exact hr u rfl
  | error code =>
    obtain rfl := complete_error_next rfl h
    exact hs

theorem exec_keeps_inv {i : Instr} {s t : State} (hs : s.Inv) (h : exec i s = .next t) : t.Inv := by
  cases i with
  | nop => exact complete_keeps_inv (r := .ok s) hs (fun u hu => by cases hu; exact hs) h
  | append => exact complete_keeps_inv hs (fun _ => appendRule_keeps_inv hs) h
  | verify => exact complete_keeps_inv hs (fun _ => verifyRule_keeps_inv hs) h
  | unpack => exact complete_keeps_inv hs (fun _ => unpackRule_keeps_inv hs) h
  | pack z => exact complete_keeps_inv hs (fun _ => packRule_keeps_inv hs) h
  | encode => exact complete_keeps_inv hs (fun _ => encodeRule_keeps_inv hs) h
  | validate => exact complete_keeps_inv hs (fun _ => validateRule_keeps_inv hs) h

theorem engineMove_keeps_inv {s t : State} (hs : s.Inv) (h : engineMove s = .next t) : t.Inv := by
  by_cases hb : s.status.busy = true
  · cases hd : decode s.lcmd with
    | ok i =>
      rw [engineMove_legal hb hd] at h
      exact exec_keeps_inv hs h
    | error reason =>
      rw [engineMove_illegal hb hd] at h
      exact complete_keeps_inv (r := .error .illegalCommand) hs (fun _ e => nomatch e) h
  · rw [engineMove_idle (by simpa using hb)] at h
    cases h
    exact hs

/-! ### The host's move and the reset -/

/-- A write reaches the RAMs through their windows alone, and WFULL and RESULT not at all. -/
theorem writeTarget_keeps_inv {s : State} {off : Offset} {t : Target} (hs : s.Inv) (ht : target off = some t)
    (v : Word) : (writeTarget s v t).Inv := by
  have ⟨hmem, hrest⟩ := hs
  obtain ⟨hdata, hword⟩ := Memory.wf_writeWindow (v := v) hmem
  cases t with
  | dataWindow j => exact ⟨hdata j (target_dataWindow ht).1, hrest⟩
  | wordWindow j => exact ⟨hword j (target_wordWindow ht).1, hrest⟩
  | _ => exact hs

theorem busWrite_keeps_inv {s : State} (hs : s.Inv) (off : Offset) (v : Word) : (busWrite s off v).Inv := by
  obtain ⟨_, e⟩ | ⟨_, _, _, _, e⟩ | ⟨t, ht, _, e⟩ := busWrite_cases s off v <;> rw [e]
  · exact hs
  · exact hs
  · exact writeTarget_keeps_inv hs ht v

theorem hostMove_keeps_inv {s : State} (hs : s.Inv) : (hostMove s).Inv := by
  obtain e | ⟨_, e⟩ | ⟨_, _, e⟩ | ⟨_, e⟩ | ⟨ops, off, v, e⟩ := hostMove_cases s <;> rw [e]
  case inr.inr.inr.inr => exact busWrite_keeps_inv (s := s.withScript ops) hs off v
  all_goals exact hs

theorem blockReset_inv (s : State) : (blockReset s).Inv := ⟨rfl, Nat.zero_le _, nofun, nofun⟩

/-- Settles O7: the host's writes, the engine's completion and the reset each keep the four clauses. -/
theorem everyStepKeepsTheInvariant : Obligations.EveryStepKeepsTheInvariant := by
  intro s t hs h
  have hpop : s.popTurn.Inv := hs
  cases hturn : s.nextTurn with
  | host =>
    rw [step_host hturn] at h
    cases h
    exact hostMove_keeps_inv hpop
  | engine =>
    rw [step_engine hturn] at h
    exact engineMove_keeps_inv hpop h
  | reset =>
    rw [step_reset hturn] at h
    cases h
    exact blockReset_inv s.popTurn

end Sys2Proof.Machine

/-! ## UNPACK and PACK (spec/40_bitpacker.md R106 to R109) -/

namespace Sys2Proof.Machine

/-! ### How the two commands end -/

/-- UNPACK completes or raises its one error (spec/40_bitpacker.md R106). -/
theorem exec_unpack_cases (s : State) :
    (s.opN ≤ 1056 ∧ exec .unpack s = .next { unpacked s with status := okStatus s }) ∨
    (1056 < s.opN ∧ exec .unpack s = .next (errorEnd s .lengthRange)) := by
  obtain ⟨hn, e⟩ | ⟨hn, e⟩ := unpackRule_cases s
  · exact .inl ⟨hn, congrArg (complete s) e⟩
  · exact .inr ⟨hn, congrArg (complete s) e⟩

/-- PACK completes or raises one of its errors (spec/40_bitpacker.md R107). -/
theorem exec_pack_cases (z : Bool) (s : State) :
    (s.opN ≤ 1056 ∧ s.opCount ≤ 768 ∧ 11 * s.opCount ≤ 8 * s.opN ∧
      exec (.pack z) s = .next { s with mem := packedMem z s.mem s.opCount s.opN, status := okStatus s }) ∨
    ((1056 < s.opN ∨ 768 < s.opCount) ∧ exec (.pack z) s = .next (errorEnd s .lengthRange)) ∨
    (s.opN ≤ 1056 ∧ s.opCount ≤ 768 ∧ 8 * s.opN < 11 * s.opCount ∧
      exec (.pack z) s = .next (errorEnd s .encodingOverflow)) := by
  obtain ⟨hn, hcnt, hfit, e⟩ | ⟨hrange, e⟩ | ⟨hn, hcnt, hfit, e⟩ := packRule_cases z s
  · exact .inl ⟨hn, hcnt, hfit, congrArg (complete s) e⟩
  · exact .inr (.inl ⟨hrange, congrArg (complete s) e⟩)
  · exact .inr (.inr ⟨hn, hcnt, hfit, congrArg (complete s) e⟩)

/-- An UNPACK without error left its writes. -/
theorem eq_unpacked_of_noError {s t : State} (h : exec .unpack s = .next t) (hok : t.status.errcode = .noError) :
    s.opN ≤ 1056 ∧ t = { unpacked s with status := okStatus s } := by
  obtain ⟨hn, e⟩ | ⟨_, e⟩ := exec_unpack_cases s <;> rw [e] at h <;> cases h
  · exact ⟨hn, rfl⟩
  · cases hok

/-- A PACK without error had room, and left its writes. -/
theorem eq_packed_of_noError {z : Bool} {s t : State} (h : exec (.pack z) s = .next t)
    (hok : t.status.errcode = .noError) : s.opN ≤ 1056 ∧ 11 * s.opCount ≤ 8 * s.opN ∧
      t = { s with mem := packedMem z s.mem s.opCount s.opN, status := okStatus s } := by
  obtain ⟨hn, _, hfit, e⟩ | ⟨_, e⟩ | ⟨_, _, _, e⟩ := exec_pack_cases z s <;> rw [e] at h <;> cases h
  · exact ⟨hn, hfit, rfl⟩
  · cases hok
  · cases hok

/-! ### Groups and stream bits -/

/-- Bit `10 - j` of group `i` is stream bit `11i + j` (spec/40_bitpacker.md R101). -/
theorem getLsbD_rgroup_eq_sbit (m : Memory) (n i : Nat) {j : Nat} (h : j < 11) :
    (rgroup m n i).getLsbD (10 - j) = sbit m n (11 * i + j) := by
  rw [getLsbD_rgroup, decide_eq_true (by omega), Bool.true_and, Nat.sub_sub_self (by omega)]

/-- A stream bit of the buffer after a PACK: the bit of its group, ORed with the old one where nothing was cleared
(spec/40_bitpacker.md R107). -/
theorem dbit_packedMem_of_lt (z : Bool) (m : Memory) (cnt : Nat) {n p : Nat} (h : p < 8 * n) :
    dbit (packedMem z m cnt n) p =
      ((decide (p < 11 * cnt) && (m.word (p / 11)).getLsbD (10 - p % 11)) || (!z && dbit m p)) := by
  rw [dbit_packedMem, decide_eq_false (show ¬8 * n ≤ p by omega), Bool.or_false]

/-- What the mask of a group write leaves of an entry: its low 11 bits (spec/40_bitpacker.md R104). -/
theorem getLsbD_and_groupMask (e : Entry) (j : Nat) : (e &&& 0x7FF#16).getLsbD j = (decide (j < 11) && e.getLsbD j) := by
  by_cases hj : j < 11
  · rw [getLsbD_masked e hj, decide_eq_true hj, Bool.true_and]
  · have hmask : (0x7FF#16).getLsbD j = false := by
      rw [BitVec.getLsbD_ofNat, show 0x7FF = 2 ^ 11 - 1 from rfl, Nat.testBit_two_pow_sub_one, decide_eq_false hj,
        Bool.and_false]
    rw [BitVec.getLsbD_and, hmask, Bool.and_false, decide_eq_false hj, Bool.false_and]

/-- The stream of a buffer that PACK.Z filled: the bits of the entries, and zeros after them. -/
theorem sbit_packedMem (m : Memory) {cnt n : Nat} (hfit : 11 * cnt ≤ 8 * n) (p : Nat) :
    sbit (packedMem true m cnt n) n p = (decide (p < 11 * cnt) && (m.word (p / 11)).getLsbD (10 - p % 11)) := by
  by_cases hp : p < 8 * n
  · rw [sbit_of_lt _ hp, dbit_packedMem_of_lt _ _ _ hp]
    exact Bool.or_false _
  · rw [sbit_of_le _ (by omega), decide_eq_false (show ¬p < 11 * cnt by omega), Bool.false_and]

/-- The groups read back from a buffer that PACK.Z filled: the entries masked, and zeros after them. -/
theorem rgroup_packedMem (m : Memory) {cnt n : Nat} (hfit : 11 * cnt ≤ 8 * n) (i : Nat) :
    rgroup (packedMem true m cnt n) n i = if i < cnt then m.word i &&& 0x7FF#16 else 0#16 := by
  apply BitVec.eq_of_getLsbD_eq
  intro j _
  have hmasked : (if i < cnt then m.word i &&& 0x7FF#16 else 0#16).getLsbD j =
      (decide (j < 11) && (decide (i < cnt) && (m.word i).getLsbD j)) := by
    by_cases hi : i < cnt
    · rw [if_pos hi, getLsbD_and_groupMask, decide_eq_true hi, Bool.true_and]
    · rw [if_neg hi, BitVec.getLsbD_zero, decide_eq_false hi, Bool.false_and, Bool.and_false]
  rw [hmasked, getLsbD_rgroup]
  by_cases hj : j < 11
  · have hp : 11 * i + (10 - j) < 11 * cnt ↔ i < cnt := by omega
    rw [sbit_packedMem m hfit, show (11 * i + (10 - j)) / 11 = i by omega,
      show 10 - (11 * i + (10 - j)) % 11 = j by omega, decide_eq_decide.2 hp]
  · rw [decide_eq_false hj, Bool.false_and, Bool.false_and]

/-! ### The rules and their laws -/

/-- Settles O13: the entries UNPACK stores are the group reads, bit by bit of the stream. -/
theorem unpackFollowsItsRule : Obligations.UnpackFollowsItsRule := by
  refine ⟨decode_encode .unpack, ?_⟩
  rintro s n g rfl rfl
  obtain ⟨hn, e⟩ | ⟨hn, e⟩ := exec_unpack_cases s
  · refine ⟨fun _ => ⟨_, e, rfl, toNat_countOf (groupCount_le hn), toNat_countOf (fullCount_le hn), fun i hi j hj => ?_,
      fun i hi => ?_, read_unpacked_other s⟩, fun h => absurd hn h.not_ge⟩
    · calc ((unpacked s).mem.word i).getLsbD (10 - j)
        _ = sbit s.mem s.opN (11 * i + j) := by rw [word_unpacked hi, getLsbD_rgroup_eq_sbit _ _ _ hj]
        _ = _ := sbit_eq s.mem s.opN (11 * i + j)
    · exact (congrArg BitVec.toNat (word_unpacked hi)).trans_lt (rgroup_toNat_lt s.mem s.opN i)
  · exact ⟨fun h => absurd h hn.not_ge, fun _ => e⟩

/-- Settles O14: the bits PACK leaves in the buffer are those of the group writes, and each check excludes the others'
errors. -/
theorem packFollowsItsRule : Obligations.PackFollowsItsRule := by
  refine ⟨decode_encode (.pack false), decode_encode (.pack true), ?_⟩
  rintro s z n cnt rfl rfl
  obtain ⟨hn, hcnt, hfit, e⟩ | ⟨hrange, e⟩ | ⟨hn, hcnt, hover, e⟩ := exec_pack_cases z s
  · refine ⟨fun _ _ _ => ⟨_, e, rfl, fun p hp => dbit_packedMem_of_lt z s.mem s.opCount hp,
      read_packedMem_outside z s.mem hfit⟩, fun h => ?_, fun _ h => ?_, fun _ _ h => ?_⟩
    · exact absurd hn h.not_ge
    · exact absurd hcnt h.not_ge
    · exact absurd hfit h.not_ge
  · have hout (hn : s.opN ≤ 1056) (hcnt : s.opCount ≤ 768) : False := hrange.elim hn.not_gt hcnt.not_gt
    exact ⟨fun hn hcnt _ => (hout hn hcnt).elim, fun _ => e, fun _ _ => e, fun hn hcnt _ => (hout hn hcnt).elim⟩
  · exact ⟨fun _ _ h => absurd hover h.not_gt, fun h => absurd hn h.not_ge, fun _ h => absurd hcnt h.not_ge,
      fun _ _ _ => e⟩

/-- Settles O19: the groups UNPACK reads depend on the buffer alone, and PACK.Z filled it with the masked entries. -/
theorem unpackReadsWhatPackWrote : Obligations.UnpackReadsWhatPackWrote := by
  intro s t u h hok hext hdata
  obtain ⟨hn, hfit, rfl⟩ := eq_packed_of_noError h hok
  have hN : u.opN = s.opN := congrArg BitVec.toNat hext
  obtain ⟨_, e⟩ | ⟨hrange, _⟩ := exec_unpack_cases u
  · have hword (i : Nat) (hi : i < groupCount s.opN) :
        (unpacked u).mem.word i = if i < s.opCount then s.mem.word i &&& 0x7FF#16 else 0#16 := by
      rw [word_unpacked (hN ▸ hi), hN, rgroup_congr hdata, rgroup_packedMem s.mem hfit]
    refine ⟨_, e, rfl, fun i hi => ?_, fun i hle hi => ?_⟩
    · have hG : s.opCount ≤ groupCount s.opN := by rw [groupCount_eq]; omega
      exact (hword i (hi.trans_le hG)).trans (if_pos hi)
    · exact (hword i hi).trans (if_neg hle.not_gt)
  · exact absurd hn (hN ▸ hrange).not_ge

/-- Settles O20: PACK.Z writes the complete groups that UNPACK read, and those are the stream up to its last bits. -/
theorem packRestoresWhatUnpackRead : Obligations.PackRestoresWhatUnpackRead := by
  intro s t u h hok hext hwcount hword
  obtain ⟨hn, rfl⟩ := eq_unpacked_of_noError h hok
  have hF : fullCount s.opN ≤ 768 := fullCount_le hn
  have hfit : 11 * fullCount s.opN ≤ 8 * s.opN := Nat.mul_div_le _ _
  have hN : u.opN = s.opN := congrArg BitVec.toNat hext
  have hcnt : u.opCount = fullCount s.opN := (congrArg BitVec.toNat hwcount).trans (toNat_countOf hF)
  obtain ⟨_, _, _, e⟩ | ⟨hrange, _⟩ | ⟨_, _, hover, _⟩ := exec_pack_cases true u
  · refine ⟨_, e, rfl, fun p hp => ?_⟩
    have hbit (hlt : p < 11 * fullCount s.opN) : (u.mem.word (p / 11)).getLsbD (10 - p % 11) = dbit s.mem p := by
      have hi : p / 11 < fullCount s.opN := by omega
      have hG : fullCount s.opN ≤ groupCount s.opN := by rw [fullCount_eq, groupCount_eq]; omega
      have hgroup : u.mem.word (p / 11) = rgroup s.mem s.opN (p / 11) :=
        (hword _ (hi.trans_eq (toNat_countOf hF).symm)).trans (word_unpacked (hi.trans_le hG))
      rw [hgroup, getLsbD_rgroup_eq_sbit _ _ _ (Nat.mod_lt p (by omega)), Nat.div_add_mod, sbit_of_lt _ hp]
    calc dbit (packedMem true u.mem u.opCount u.opN) p
      _ = (decide (p < 11 * fullCount s.opN) && (u.mem.word (p / 11)).getLsbD (10 - p % 11)) := by
        rw [hcnt, hN, dbit_packedMem_of_lt _ _ _ hp]
        exact Bool.or_false _
      _ = (decide (p < 11 * fullCount s.opN) && dbit s.mem p) := by
        by_cases hlt : p < 11 * fullCount s.opN
        · rw [hbit hlt]
        · rw [decide_eq_false hlt, Bool.false_and, Bool.false_and]
  · exact absurd hrange (by omega)
  · exact absurd hover (by omega)

end Sys2Proof.Machine

/-! ## APPEND and VERIFY (spec/41_checksum.md R124 to R127) -/

namespace Sys2Proof.Machine

/-! ### How APPEND and VERIFY end -/

/-- APPEND completes or raises one of its errors (spec/41_checksum.md R124). -/
theorem exec_append_cases (s : State) :
    (s.opL % 4 = 0 ∧ s.opL ≤ 1024 ∧ exec .append s = .next { appended s with status := okStatus s }) ∨
    (s.opL % 4 ≠ 0 ∧ exec .append s = .next (errorEnd s .invalidEntropyLength)) ∨
    (s.opL % 4 = 0 ∧ 1024 < s.opL ∧ exec .append s = .next (errorEnd s .lengthRange)) := by
  obtain ⟨hl, hle, e⟩ | ⟨hl, e⟩ | ⟨hl, hgt, e⟩ := appendRule_cases s
  · exact .inl ⟨hl, hle, congrArg (complete s) e⟩
  · exact .inr (.inl ⟨hl, congrArg (complete s) e⟩)
  · exact .inr (.inr ⟨hl, hgt, congrArg (complete s) e⟩)

/-- VERIFY completes or raises one of its errors (spec/41_checksum.md R125). -/
theorem exec_verify_cases (s : State) :
    (s.opL % 4 = 0 ∧ s.opL ≤ 1024 ∧ s.opN ≤ 1056 ∧
      exec .verify s = .next { verified s with status := okStatus s }) ∨
    (s.opL % 4 ≠ 0 ∧ exec .verify s = .next (errorEnd s .invalidEntropyLength)) ∨
    (s.opL % 4 = 0 ∧ (1024 < s.opL ∨ 1056 < s.opN) ∧ exec .verify s = .next (errorEnd s .lengthRange)) := by
  obtain ⟨hl, hle, hn, e⟩ | ⟨hl, e⟩ | ⟨hl, hrange, e⟩ := verifyRule_cases s
  · exact .inl ⟨hl, hle, hn, congrArg (complete s) e⟩
  · exact .inr (.inl ⟨hl, congrArg (complete s) e⟩)
  · exact .inr (.inr ⟨hl, hrange, congrArg (complete s) e⟩)

/-- An APPEND without error had a legal entropy length, and left its writes. -/
theorem eq_appended_of_noError {s t : State} (h : exec .append s = .next t) (hok : t.status.errcode = .noError) :
    s.opL % 4 = 0 ∧ s.opL ≤ 1024 ∧ t = { appended s with status := okStatus s } := by
  obtain ⟨hl, hle, e⟩ | ⟨_, e⟩ | ⟨_, _, e⟩ := exec_append_cases s <;> rw [e] at h <;> cases h
  · exact ⟨hl, hle, rfl⟩
  · cases hok
  · cases hok

/-! ### The extension in DATA -/

/-- The checksum bytes of the model are those the statements write out (spec/41_checksum.md R120 to R122). -/
theorem cksumByte_eq_checksumByteOf (m : Memory) (l j : Nat) :
    cksumByte (sha256 (m.dataBytes l)) l j = checksumByteOf m l j := rfl

/-- The extended length and its bits (spec/41_checksum.md R126). -/
theorem extended_sizes {l : Nat} (h : l % 4 = 0) : l + cksumBytes l = l + (l + 31) / 32 ∧
    8 * l + l / 4 = 33 * (l / 4) ∧ 8 * (l + cksumBytes l) - 33 * (l / 4) ≤ 7 := by
  rw [cksumBytes_eq]
  omega

theorem toNat_extLen_appended {s : State} (h : s.opL ≤ 1024) :
    (appended s).extLen.toNat = s.opL + cksumBytes s.opL := toNat_extLenOf (length_extended_le h)

/-- Writing the checksum leaves the entropy before it. -/
theorem data_extended_entropy (m : Memory) {l a : Nat} (h : a < l) : (m.writeData l (cks m l)).data a = m.data a := by
  rw [Memory.data_writeData, if_neg (by omega)]

/-- The bytes after the entropy are its checksum. -/
theorem data_extended_checksum (m : Memory) {l j : Nat} (h : j < cksumBytes l) :
    (m.writeData l (cks m l)).data (l + j) = checksumByteOf m l j := by
  rw [Memory.data_writeData, length_cks, if_pos ⟨by omega, by omega⟩, Nat.add_sub_cancel_left, getD_cks m l h,
    cksumByte_eq_checksumByteOf]

/-- The checksum of the entropy is the same once it stands after it. -/
theorem checksumByteOf_extended (m : Memory) (l j : Nat) :
    checksumByteOf (m.writeData l (cks m l)) l j = checksumByteOf m l j := by
  unfold checksumByteOf
  rw [Memory.dataBytes_congr fun _ => data_extended_entropy m]

/-- Stream bits of the extension after the `k` checksum bits are zero (spec/41_checksum.md R126). -/
theorem dbit_extended_tail (m : Memory) {l p : Nat} (h : 8 * l + l / 4 ≤ p) (hp : p < 8 * (l + cksumBytes l)) :
    dbit (m.writeData l (cks m l)) p = false := by
  have hmasked : ¬p - 8 * l < cksumBits l := by unfold cksumBits; omega
  rw [dbit_appended m (by omega) hp, decide_eq_false hmasked, Bool.false_and]

/-- VERIFY's comparison, byte by byte of the recomputed extension (spec/41_checksum.md R125). -/
theorem extensionMatches_iff_bytes (m : Memory) (l n : Nat) : extensionMatches m l n = true ↔
    l + cksumBytes l = n ∧ ∀ a < n, (if a < l then m.data a else checksumByteOf m l (a - l)) = m.data a := by
  simp only [extensionMatches_iff, cksumByte_eq_checksumByteOf]
  refine and_congr_right ?_
  rintro rfl
  constructor
  · intro hcks a ha
    by_cases hl : a < l
    · rw [if_pos hl]
    · have hbyte := hcks (a - l) (by omega)
      rw [Nat.add_sub_cancel' (not_lt.1 hl)] at hbyte
      rwa [if_neg hl]
  · intro hbytes j hj
    have hbyte := hbytes (l + j) (by omega)
    rwa [if_neg (by omega), Nat.add_sub_cancel_left] at hbyte

/-- The extension that APPEND writes matches the one recomputed from it. -/
theorem extensionMatches_extended (m : Memory) (l : Nat) :
    extensionMatches (m.writeData l (cks m l)) l (l + cksumBytes l) = true := by
  refine (extensionMatches_iff _ _ _).2 ⟨rfl, fun j hj => ?_⟩
  rw [cksumByte_eq_checksumByteOf, checksumByteOf_extended, data_extended_checksum m hj]

/-! ### The rules and their laws -/

/-- Settles O11: the bytes APPEND writes are the checksum bytes, and each check excludes the other's error. -/
theorem appendFollowsItsRule : Obligations.AppendFollowsItsRule := by
  refine ⟨decode_encode .append, ?_⟩
  rintro s l c rfl rfl
  obtain ⟨hl, hle, e⟩ | ⟨hl, e⟩ | ⟨hl, hgt, e⟩ := exec_append_cases s
  · exact ⟨fun _ _ => ⟨_, e, rfl, toNat_extLen_appended hle, fun _ => data_extended_checksum s.mem,
      read_appended_other s⟩, fun h => absurd hl h, fun _ h => absurd hle h.not_ge⟩
  · exact ⟨fun h => absurd h hl, fun _ => e, fun h => absurd h hl⟩
  · exact ⟨fun _ h => absurd h hgt.not_ge, fun h => absurd hl h, fun _ _ => e⟩

/-- Settles O12: MATCH is the comparison with the recomputed extension, and each check excludes the others' errors. -/
theorem verifyFollowsItsRule : Obligations.VerifyFollowsItsRule := by
  refine ⟨decode_encode .verify, ?_⟩
  rintro s l n c rfl rfl rfl
  obtain ⟨hl, hle, hn, e⟩ | ⟨hl, e⟩ | ⟨hl, hrange, e⟩ := exec_verify_cases s
  · exact ⟨fun _ _ _ => ⟨_, e, rfl, extensionMatches_iff_bytes s.mem s.opL s.opN⟩, fun h => absurd hl h,
      fun _ h => absurd hle h.not_ge, fun _ _ h => absurd hn h.not_ge⟩
  · exact ⟨fun h => absurd h hl, fun _ => e, fun h => absurd h hl, fun h => absurd h hl⟩
  · exact ⟨fun _ hle hn => (hrange.elim hle.not_gt hn.not_gt).elim, fun h => absurd hl h, fun _ _ => e,
      fun _ _ _ => e⟩

/-- Settles O21: the checksum has `k = L / 4` bits in `ceil(k / 8)` bytes, and its mask clears the bits after them. -/
theorem extensionEndsInZeroBits : Obligations.ExtensionEndsInZeroBits := by
  intro s t h hok
  obtain ⟨hl, hle, rfl⟩ := eq_appended_of_noError h hok
  obtain ⟨hlen, hbits, htail⟩ := extended_sizes hl
  have hT : (appended s).extLen.toNat = s.opL + cksumBytes s.opL := toNat_extLen_appended hle
  refine ⟨hT.trans hlen, hbits, ?_, fun p hp hpT => ?_⟩
  · show 8 * (appended s).extLen.toNat - 33 * (s.opL / 4) ≤ 7
    rwa [hT]
  · exact dbit_extended_tail s.mem (hbits.trans_le hp) (hpT.trans_eq (congrArg (8 * ·) hT))

/-- Settles O22: VERIFY's comparison sees the extended buffer alone, and that is the extension of its entropy. -/
theorem verifyAcceptsWhatAppendWrote : Obligations.VerifyAcceptsWhatAppendWrote := by
  intro s t u v h hok hent hext hdata hv
  obtain ⟨hl, hle, rfl⟩ := eq_appended_of_noError h hok
  have hT : (appended s).extLen.toNat = s.opL + cksumBytes s.opL := toNat_extLen_appended hle
  have hL : u.opL = s.opL := congrArg BitVec.toNat hent
  have hN : u.opN = s.opL + cksumBytes s.opL := (congrArg BitVec.toNat hext).trans hT
  have hTle : s.opL + cksumBytes s.opL ≤ 1056 := length_extended_le hle
  obtain ⟨_, _, _, e⟩ | ⟨halign, _⟩ | ⟨_, hrange, _⟩ := exec_verify_cases u
  · rw [e] at hv
    cases hv
    refine ⟨?_, rfl⟩
    calc extensionMatches u.mem u.opL u.opN
      _ = extensionMatches (appended s).mem s.opL (s.opL + cksumBytes s.opL) := by
        rw [hL, hN]
        refine extensionMatches_congr fun a ha => hdata a (ha.trans_le ?_)
        exact (max_eq_right (Nat.le_add_right _ _)).trans_le hT.ge
      _ = true := extensionMatches_extended s.mem s.opL
  · exact absurd (hL ▸ hl) halign
  · exact absurd hrange (by omega)

end Sys2Proof.Machine

/-! ## ENCODE and VALIDATE (spec/42_mnemonic.md R140 to R149) -/

namespace Sys2Proof.Machine

/-! ### How ENCODE and VALIDATE end -/

/-- ENCODE completes or raises one of its errors (spec/42_mnemonic.md R140). -/
theorem exec_encode_cases (s : State) :
    (s.opL % 4 = 0 ∧ s.opL ≤ 1024 ∧ exec .encode s = .next { encodeWrites s s.opL with status := okStatus s }) ∨
    (s.opL % 4 ≠ 0 ∧ exec .encode s = .next (errorEnd s .invalidEntropyLength)) ∨
    (s.opL % 4 = 0 ∧ 1024 < s.opL ∧ exec .encode s = .next (errorEnd s .lengthRange)) := by
  obtain ⟨hl, hle, e⟩ | ⟨hl, e⟩ | ⟨hl, hgt, e⟩ := encodeRule_cases s
  · exact .inl ⟨hl, hle, congrArg (complete s) e⟩
  · exact .inr (.inl ⟨hl, congrArg (complete s) e⟩)
  · exact .inr (.inr ⟨hl, hgt, congrArg (complete s) e⟩)

/-- An ENCODE without error had a legal entropy length, and left its writes. -/
theorem eq_encoded_of_noError {s t : State} (h : exec .encode s = .next t) (hok : t.status.errcode = .noError) :
    s.opL % 4 = 0 ∧ s.opL ≤ 1024 ∧ t = { encodeWrites s s.opL with status := okStatus s } := by
  obtain ⟨hl, hle, e⟩ | ⟨_, e⟩ | ⟨_, _, e⟩ := exec_encode_cases s <;> rw [e] at h <;> cases h
  · exact ⟨hl, hle, rfl⟩
  · cases hok
  · cases hok

/-- The completion of an answer of VALIDATE over `s` (spec/42_mnemonic.md R142). -/
def answered (s : State) (v : Bool) (r : VReason) : State :=
  { s with result := { s.result with valid := v, vreason := r }, status := okStatus s }

/-- What VALIDATE finds when it compares its packed buffer (spec/42_mnemonic.md R142). -/
def packVerdict (s : State) : Bool :=
  extensionMatches (validatePack s s.opCount).mem (entropyBytes s.opCount) (bufferBytes s.opCount)

/-- The state that VALIDATE leaves when it reaches its pack step. -/
def validated (s : State) : State :=
  answered (validatePack s s.opCount) (packVerdict s) (if packVerdict s then .ok else .checksum)

/-- VALIDATE answers over the state as it was, or reaches its pack step (spec/42_mnemonic.md R142). -/
theorem exec_validate_cases (s : State) :
    (s.opCount = 0 ∧ s.lev = false ∧ exec .validate s = .next (answered s false .empty)) ∨
    (s.opCount % 3 ≠ 0 ∧ exec .validate s = .next (answered s false .count)) ∨
    (s.opCount % 3 = 0 ∧ 768 < s.opCount ∧ exec .validate s = .next (answered s false .capacity)) ∨
    (s.opCount % 3 = 0 ∧ s.opCount ≤ 768 ∧ (∃ j < s.opCount, 2048 ≤ (s.mem.word j).toNat) ∧
      exec .validate s = .next (answered s false .absent)) ∨
    (s.opCount % 3 = 0 ∧ s.opCount ≤ 768 ∧ (s.opCount = 0 → s.lev = true) ∧
      (∀ j < s.opCount, (s.mem.word j).toNat < 2048) ∧ exec .validate s = .next (validated s)) := by
  obtain ⟨h0, hlev, e⟩ | ⟨h3, e⟩ | ⟨h3, hgt, e⟩ | ⟨h3, hn, habs, e⟩ | ⟨h3, hn, hlev, hword, e⟩ := validateRule_cases s
  · exact .inl ⟨h0, hlev, congrArg (complete s) e⟩
  · exact .inr (.inl ⟨h3, congrArg (complete s) e⟩)
  · exact .inr (.inr (.inl ⟨h3, hgt, congrArg (complete s) e⟩))
  · exact .inr (.inr (.inr (.inl ⟨h3, hn, habs, congrArg (complete s) e⟩)))
  · refine .inr (.inr (.inr (.inr ⟨h3, hn, hlev, hword, (congrArg (complete s) e).trans ?_⟩)))
    unfold validated packVerdict
    obtain ⟨hv, e⟩ | ⟨hv, e⟩ := validateCompare_cases (validatePack s s.opCount) s.opCount <;> rw [e, hv] <;> rfl

/-- A VALIDATE that answers OK or CHECKSUM reached its pack step. -/
theorem eq_validated_of_reachedPack {s t : State} (h : exec .validate s = .next t) (hr : ReachedPack t) :
    s.opCount % 3 = 0 ∧ s.opCount ≤ 768 ∧ t = validated s := by
  obtain ⟨_, _, e⟩ | ⟨_, e⟩ | ⟨_, _, e⟩ | ⟨_, _, _, e⟩ | ⟨h3, hn, _, _, e⟩ := exec_validate_cases s <;>
    rw [e] at h <;> cases h
  case inr.inr.inr.inr => exact ⟨h3, hn, rfl⟩
  all_goals obtain hr | hr := hr <;> cases hr

/-! ### The state that VALIDATE leaves -/

theorem validated_mem (s : State) :
    (validated s).mem = packedMem true s.mem s.opCount (bufferBytes s.opCount) := rfl

/-- The verdict is about the buffer as the completion leaves it. -/
theorem packVerdict_eq (s : State) : packVerdict s =
    extensionMatches (validated s).mem (entropyBytes s.opCount) (bufferBytes s.opCount) := rfl

/-- The stream bits of the packed buffer after the entries are zero. -/
theorem dbit_validated_tail (s : State) {p : Nat} (h : 11 * s.opCount ≤ p) (hp : p < 8 * bufferBytes s.opCount) :
    dbit (validated s).mem p = false := by
  refine (dbit_validatePack s hp).trans ?_
  rw [decide_eq_false h.not_gt, Bool.false_and]

/-- The answer over the packed buffer is its verdict. -/
theorem validated_result_cases (s : State) :
    (packVerdict s = true ∧ (validated s).result.valid = true ∧ (validated s).result.vreason = .ok) ∨
    (packVerdict s = false ∧ (validated s).result.valid = false ∧ (validated s).result.vreason = .checksum) := by
  have hvalid : (validated s).result.valid = packVerdict s := rfl
  have hreason : (validated s).result.vreason = if packVerdict s then .ok else .checksum := rfl
  rw [hvalid, hreason]
  cases packVerdict s with
  | true => exact .inl ⟨rfl, rfl, rfl⟩
  | false => exact .inr ⟨rfl, rfl, rfl⟩

theorem validated_ok_iff (s : State) :
    (validated s).result.valid = true ∧ (validated s).result.vreason = .ok ↔ packVerdict s = true := by
  obtain ⟨hv, hok⟩ | ⟨hv, hvalid, _⟩ := validated_result_cases s
  · exact iff_of_true hok hv
  · simp [hv, hvalid]

section
variable {s : State} (h3 : s.opCount % 3 = 0) (hn : s.opCount ≤ 768)
include h3 hn

theorem toNat_entLen_validated : (validated s).entLen.toNat = entropyBytes s.opCount := by
  obtain ⟨_, hE, _, _⟩ := validate_sizes h3 hn
  exact toNat_entLenOf (by omega)

theorem toNat_extLen_validated : (validated s).extLen.toNat = bufferBytes s.opCount := by
  obtain ⟨_, _, hB, _⟩ := validate_sizes h3 hn
  exact toNat_extLenOf hB

/-- The verdict, byte by byte of the checksum (spec/42_mnemonic.md R142). -/
theorem packVerdict_iff_bytes : packVerdict s = true ↔
    ∀ j < bufferBytes s.opCount - entropyBytes s.opCount,
      checksumByteOf (validated s).mem (entropyBytes s.opCount) j =
        (validated s).mem.data (entropyBytes s.opCount + j) := by
  obtain ⟨_, _, _, hB⟩ := validate_sizes h3 hn
  rw [packVerdict_eq, extensionMatches_iff, and_iff_right hB, ← hB, Nat.add_sub_cancel_left]
  rfl

end

/-! ### The checksum bits -/

/-- Bit `b` of a checksum, its most significant bit 0: a digest bit among the first `k`, and zero after them
(spec/41_checksum.md R121). -/
theorem getLsbD_cksumByte_eq_getMsbD (h : Digest) {l b : Nat} (hl : l ≤ 1024) (hb : b < 8 * cksumBytes l) :
    (cksumByte h l (b / 8)).getLsbD (7 - b % 8) = (decide (b < l / 4) && h.getMsbD b) := by
  have hC := cksumBytes_le hl
  rw [getLsbD_cksumByte h (by omega) (by omega), getLsbD_digestByte h (by omega),
    show 8 * (b / 8) + (7 - (7 - b % 8)) = b by omega]
  rfl

/-- The comparison, bit by bit of the checksum bytes. -/
theorem extensionMatches_iff_bits (m : Memory) {l : Nat} (hl : l ≤ 1024) :
    extensionMatches m l (l + cksumBytes l) = true ↔ ∀ b < 8 * cksumBytes l,
      dbit m (8 * l + b) = (decide (b < l / 4) && (sha256 (m.dataBytes l)).getMsbD b) := by
  have hbit (b : Nat) : dbit m (8 * l + b) = (m.data (l + b / 8)).getLsbD (7 - b % 8) := by
    rw [getLsbD_data m _ (by omega), show 8 * (l + b / 8) + (7 - (7 - b % 8)) = 8 * l + b by omega]
  rw [extensionMatches_iff, and_iff_right rfl]
  constructor
  · intro hbytes b hb
    rw [hbit, ← hbytes (b / 8) (by omega), getLsbD_cksumByte_eq_getMsbD _ hl hb]
  · intro hbits j hj
    apply BitVec.eq_of_getLsbD_eq
    intro k hk
    have hb := hbits (8 * j + (7 - k)) (by omega)
    rw [hbit, ← getLsbD_cksumByte_eq_getMsbD _ hl (by omega), show (8 * j + (7 - k)) / 8 = j by omega,
      show 7 - (8 * j + (7 - k)) % 8 = k by omega] at hb
    exact hb.symm

/-- Where the stream is zero after the `k` checksum bits, the comparison is of those bits alone
(spec/42_mnemonic.md R149). -/
theorem extensionMatches_iff_checksumBits {m : Memory} {l : Nat} (hl : l ≤ 1024)
    (htail : ∀ p, 8 * l + l / 4 ≤ p → p < 8 * (l + cksumBytes l) → dbit m p = false) :
    extensionMatches m l (l + cksumBytes l) = true ↔
      ∀ b < l / 4, dbit m (8 * l + b) = (sha256 (m.dataBytes l)).getMsbD b := by
  have hC : l / 4 ≤ 8 * cksumBytes l := by rw [cksumBytes_eq]; omega
  rw [extensionMatches_iff_bits m hl]
  constructor
  · intro hbits b hb
    rw [hbits b (by omega), decide_eq_true hb, Bool.true_and]
  · intro hbits b hb
    by_cases hk : b < l / 4
    · rw [hbits b hk, decide_eq_true hk, Bool.true_and]
    · rw [htail _ (by omega) (by omega), decide_eq_false hk, Bool.false_and]

/-- VALIDATE's verdict is about the `k` checksum bits alone (spec/42_mnemonic.md R149). -/
theorem packVerdict_iff_checksumBits {s : State} (h3 : s.opCount % 3 = 0) (hn : s.opCount ≤ 768) :
    packVerdict s = true ↔ ∀ b < s.opCount / 3, dbit (validated s).mem (32 * (s.opCount / 3) + b) =
      (sha256 ((validated s).mem.dataBytes (4 * (s.opCount / 3)))).getMsbD b := by
  obtain ⟨hE, hle, _, hB⟩ := validate_sizes h3 hn
  rw [packVerdict_eq, ← hB, extensionMatches_iff_checksumBits hle fun p hp hlt =>
    dbit_validated_tail s (by omega) (by omega), hE, show 4 * (s.opCount / 3) / 4 = s.opCount / 3 by omega,
    ← Nat.mul_assoc]

/-! ### What ENCODE leaves, and what VALIDATE recovers of it -/

theorem toNat_extLen_encodeWrites (s : State) {l : Nat} (h : l ≤ 1024) :
    (encodeWrites s l).extLen.toNat = l + cksumBytes l := toNat_extLenOf (length_extended_le h)

/-- WCOUNT and WFULL after ENCODE. -/
theorem toNat_countOf_fullCount_extended {l : Nat} (h4 : l % 4 = 0) (h : l ≤ 1024) :
    (countOf (fullCount (l + cksumBytes l))).toNat = 3 * l / 4 :=
  (toNat_countOf (fullCount_le (length_extended_le h))).trans (fullCount_extended h4)

/-- The entries that ENCODE stores are the complete groups of the extended buffer (spec/42_mnemonic.md R140). -/
theorem getLsbD_word_encodeWrites (s : State) {l i j : Nat} (hi : i < fullCount (l + cksumBytes l)) (hj : j < 11) :
    ((encodeWrites s l).mem.word i).getLsbD (10 - j) = dbit (s.mem.writeData l (cks s.mem l)) (11 * i + j) := by
  rw [fullCount_eq] at hi
  rw [word_encodeWrites s hi, getLsbD_rgroup_eq_sbit _ _ _ hj, sbit_of_lt _ (by omega)]

theorem toNat_word_encodeWrites_lt (s : State) {l i : Nat} (hi : i < fullCount (l + cksumBytes l)) :
    ((encodeWrites s l).mem.word i).toNat < 2048 :=
  (congrArg BitVec.toNat (word_encodeWrites s hi)).trans_lt (rgroup_toNat_lt _ _ _)

/-- Packing ENCODE's entries restores the extended buffer: its meaningful bits are `33k`, and the others are zero
(spec/42_mnemonic.md R148). -/
theorem data_packedMem_encodeWrites {s : State} {m : Memory} {l : Nat} (h4 : l % 4 = 0)
    (hword : ∀ i < 3 * l / 4, m.word i = (encodeWrites s l).mem.word i) :
    ∀ a < l + cksumBytes l,
      (packedMem true m (3 * l / 4) (l + cksumBytes l)).data a = (s.mem.writeData l (cks s.mem l)).data a := by
  intro a ha
  refine data_eq_of_dbit fun p hp => ?_
  rw [dbit_packedMem_of_lt _ _ _ (by omega), Bool.not_true, Bool.false_and, Bool.or_false]
  by_cases hlt : p < 11 * (3 * l / 4)
  · have hi : p / 11 < 3 * l / 4 := by omega
    rw [decide_eq_true hlt, Bool.true_and, hword _ hi,
      getLsbD_word_encodeWrites s (hi.trans_eq (fullCount_extended h4).symm) (Nat.mod_lt p (by omega)), Nat.div_add_mod]
  · rw [decide_eq_false hlt, Bool.false_and, dbit_extended_tail s.mem (by omega) (by omega)]

/-- The pack step over as many entries as ENCODE stores has ENCODE's two lengths (spec/42_mnemonic.md R143, R148). -/
theorem validate_sizes_of_encoded {l : Nat} (h4 : l % 4 = 0) (h : l ≤ 1024) :
    entropyBytes (3 * l / 4) = l ∧ bufferBytes (3 * l / 4) = l + cksumBytes l := by
  obtain ⟨hE, _, _, hB⟩ := validate_sizes (n := 3 * l / 4) (by omega) (by omega)
  have hEL : entropyBytes (3 * l / 4) = l := by omega
  exact ⟨hEL, hB.symm.trans (by rw [hEL])⟩

section
variable {s u : State} (h4 : s.opL % 4 = 0) (hle : s.opL ≤ 1024) (hn : u.opCount = 3 * s.opL / 4)
  (hword : ∀ i < 3 * s.opL / 4, u.mem.word i = (encodeWrites s s.opL).mem.word i)
include h4 hle hn hword

/-- VALIDATE of ENCODE's entries reaches its pack step (spec/42_mnemonic.md R148). -/
theorem exec_validate_of_encoded (hlev : 0 < s.opL ∨ u.lev = true) : exec .validate u = .next (validated u) := by
  obtain ⟨h0, hlev0, _⟩ | ⟨h3, _⟩ | ⟨_, hgt, _⟩ | ⟨_, _, ⟨i, hi, hentry⟩, _⟩ | ⟨_, _, _, _, e⟩ :=
    exec_validate_cases u
  · obtain hpos | hlev := hlev
    · omega
    · simp [hlev] at hlev0
  · omega
  · omega
  · rw [hn] at hi
    rw [hword i hi] at hentry
    exact absurd hentry (toNat_word_encodeWrites_lt s (hi.trans_eq (fullCount_extended h4).symm)).not_ge
  · exact e

theorem data_validated_of_encoded : ∀ a < s.opL + cksumBytes s.opL,
    (validated u).mem.data a = (s.mem.writeData s.opL (cks s.mem s.opL)).data a := by
  obtain ⟨_, hB⟩ := validate_sizes_of_encoded h4 hle
  rw [validated_mem, hn, hB]
  exact data_packedMem_encodeWrites h4 hword

theorem packVerdict_of_encoded : packVerdict u = true := by
  obtain ⟨hE, hB⟩ := validate_sizes_of_encoded h4 hle
  have hdata := data_validated_of_encoded h4 hle hn hword
  calc packVerdict u
    _ = extensionMatches (validated u).mem s.opL (s.opL + cksumBytes s.opL) := by
      rw [packVerdict_eq, hn, hE, hB]
    _ = extensionMatches (s.mem.writeData s.opL (cks s.mem s.opL)) s.opL (s.opL + cksumBytes s.opL) :=
      extensionMatches_congr fun a ha => hdata a (by omega)
    _ = true := extensionMatches_extended s.mem s.opL

end

/-! ### The rules and their laws -/

/-- Settles O15: the entries ENCODE stores are the complete groups of the buffer it has just extended. -/
theorem encodeFollowsItsRule : Obligations.EncodeFollowsItsRule := by
  refine ⟨decode_encode .encode, ?_⟩
  rintro s l c rfl rfl
  obtain ⟨hl, hle, e⟩ | ⟨hl, e⟩ | ⟨hl, hgt, e⟩ := exec_encode_cases s
  · have hT := length_extended_le hle
    have hF := fullCount_extended hl
    have hcount := toNat_countOf_fullCount_extended hl hle
    have hdata (a : Nat) (ha : a < s.opL + cksumBytes s.opL) :
        (encodeWrites s s.opL).mem.data a = (s.mem.writeData s.opL (cks s.mem s.opL)).data a :=
      data_encodeWrites s s.opL (ha.trans_le hT)
    refine ⟨fun _ _ => ⟨_, e, rfl, toNat_extLen_encodeWrites s hle, hcount, hcount, fun j hj => ?_, fun i hi j hj => ?_,
      fun i hi => ?_, fun a hcks hwords => ?_⟩, fun h => absurd hl h, fun _ h => absurd hle h.not_ge⟩
    · exact (hdata _ (Nat.add_lt_add_left hj _)).trans (data_extended_checksum s.mem hj)
    · have hi' := hi.trans_eq hF.symm
      have hp : (11 * i + j) / 8 < s.opL + cksumBytes s.opL := by rw [fullCount_eq] at hi'; omega
      exact (getLsbD_word_encodeWrites s hi' hj).trans (dbit_congr (hdata _ hp)).symm
    · exact toNat_word_encodeWrites_lt s (hi.trans_eq hF.symm)
    · exact read_encodeWrites_other s s.opL a hcks (by rwa [hF])
  · exact ⟨fun h => absurd h hl, fun _ => e, fun h => absurd h hl⟩
  · exact ⟨fun _ h => absurd h hgt.not_ge, fun h => absurd hl h, fun _ _ => e⟩

/-- Settles O16: each answer excludes the others' conditions, and the pack step's answer is its verdict. -/
theorem validateFollowsItsRule : Obligations.ValidateFollowsItsRule := by
  refine ⟨decode_encode .validate, ?_⟩
  rintro s n (rfl : n = s.opCount) early
  obtain ⟨h0, hlev, e⟩ | ⟨h3, e⟩ | ⟨h3, hgt, e⟩ | ⟨h3, hn, ⟨j, hj, hentry⟩, e⟩ | ⟨h3, hn, hlev, hword, e⟩ :=
    exec_validate_cases s
  · exact ⟨fun _ _ => e, fun h => by omega, fun _ h => by omega, fun _ _ ⟨i, hi, _⟩ => by omega,
      fun _ _ h => absurd (h h0) (by simp [hlev])⟩
  · exact ⟨fun h => by omega, fun _ => e, fun h => absurd h h3, fun h => absurd h h3, fun h => absurd h h3⟩
  · exact ⟨fun h => by omega, fun h => absurd h3 h, fun _ _ => e, fun _ h => absurd h hgt.not_ge,
      fun _ h => absurd h hgt.not_ge⟩
  · exact ⟨fun h => by omega, fun h => absurd h3 h, fun _ h => absurd hn h.not_ge, fun _ _ _ => e,
      fun _ _ _ h => absurd hentry (h j hj).not_ge⟩
  · refine ⟨fun h h' => absurd (hlev h) (by simp [h']), fun h => absurd h3 h, fun _ h => absurd hn h.not_ge,
      fun _ _ ⟨i, hi, h⟩ => absurd h (hword i hi).not_ge, fun _ _ _ _ => ⟨_, e, rfl, ?_⟩⟩
    have hverdict := packVerdict_iff_bytes h3 hn
    rw [toNat_entLen_validated h3 hn, toNat_extLen_validated h3 hn]
    refine ⟨rfl, rfl, fun p => dbit_validatePack s, read_packedMem_outside true s.mem
      ((fits_iff _ _).1 (validate_fits s.opCount)), ?_⟩
    obtain ⟨hv, hvalid, hreason⟩ | ⟨hv, hvalid, hreason⟩ := validated_result_cases s
    · exact .inl ⟨hvalid, hreason, hverdict.1 hv⟩
    · rw [← Bool.not_eq_true, hverdict] at hv
      push Not at hv
      exact .inr ⟨hvalid, hreason, hv⟩

/-- Settles O17: every answer of VALIDATE is a completion, and a buffer of `ceil(11n / 8)` bytes has room. -/
theorem validateNeverFails : Obligations.ValidateNeverFails := by
  refine ⟨fun s => ?_, fun n => (fits_iff _ _).1 (validate_fits n)⟩
  obtain ⟨_, _, e⟩ | ⟨_, e⟩ | ⟨_, _, e⟩ | ⟨_, _, _, e⟩ | ⟨_, _, _, _, e⟩ := exec_validate_cases s
  case inr.inr.inr.inr =>
    refine ⟨_, e, rfl, ?_⟩
    obtain ⟨_, hvalid, hreason⟩ | ⟨_, hvalid, hreason⟩ := validated_result_cases s <;> simp [hvalid, hreason]
  all_goals exact ⟨_, e, rfl, nofun, nofun, nofun⟩

/-- Settles O23: the extended buffer holds `33k` meaningful bits, and the group after them reads masked bits only. -/
theorem extensionHoldsThreeGroupsPerFourBytes : Obligations.ExtensionHoldsThreeGroupsPerFourBytes := by
  intro l h4 hl
  have hC := cksumBytes_eq l
  have hbits : 8 * (l + cksumBytes l) = 33 * (l / 4) + (8 * cksumBytes l - l / 4) := by omega
  have hrest : 8 * cksumBytes l - l / 4 = 0 ↔ l % 32 = 0 := by omega
  have hle : 8 * cksumBytes l - l / 4 ≤ 7 := by omega
  refine ⟨by rw [fullCount_eq]; omega, by omega, hbits, hle, by omega, fun h32 => ⟨?_, fun m => ?_⟩⟩
  · rw [groupCount_eq, fullCount_eq]
    omega
  apply BitVec.eq_of_getLsbD_eq
  intro j _
  rw [getLsbD_rgroup, BitVec.getLsbD_zero, Bool.and_eq_false_iff]
  right
  by_cases hp : 11 * (3 * (l / 4)) + (10 - j) < 8 * (l + cksumBytes l)
  · rw [sbit_of_lt _ hp, dbit_extended_tail m (by omega) hp]
  · exact sbit_of_le _ (not_lt.1 hp)

/-- Settles O24: VALIDATE's pack step restores the extended buffer, which matches its own extension. -/
theorem validateAcceptsWhatEncodeWrote : Obligations.ValidateAcceptsWhatEncodeWrote := by
  intro s t u h hok hwcount hword hlev
  obtain ⟨hl, hle, rfl⟩ := eq_encoded_of_noError h hok
  have hcount := toNat_countOf_fullCount_extended hl hle
  have hn : u.opCount = 3 * s.opL / 4 := (congrArg BitVec.toNat hwcount).trans hcount
  have hword' (i : Nat) (hi : i < 3 * s.opL / 4) : u.mem.word i = (encodeWrites s s.opL).mem.word i :=
    hword i (hi.trans_eq hcount.symm)
  obtain ⟨hE, hB⟩ := validate_sizes_of_encoded hl hle
  obtain ⟨hvalid, hreason⟩ := (validated_ok_iff u).2 (packVerdict_of_encoded hl hle hn hword')
  refine ⟨_, exec_validate_of_encoded hl hle hn hword' hlev, hvalid, hreason, ?_, ?_, fun a ha => ?_⟩
  · apply BitVec.eq_of_toNat_eq
    rw [toNat_entLen_validated (by omega) (by omega), hn, hE]
  · exact congrArg extLenOf ((congrArg bufferBytes hn).trans hB)
  · have ha' := ha.trans_eq (toNat_extLen_encodeWrites s hle)
    exact (data_validated_of_encoded hl hle hn hword' a ha').trans
      (data_encodeWrites s s.opL (ha'.trans_le (length_extended_le hle))).symm

/-- Settles O25: the verdict is that of the checksum bits, and the digest depends on the bits before them alone. -/
theorem validateTestsExactlyTheChecksumBits : Obligations.ValidateTestsExactlyTheChecksumBits := by
  constructor
  · rintro s t k h hr (rfl : k = s.opCount / 3)
    obtain ⟨h3, hn, rfl⟩ := eq_validated_of_reachedPack h hr
    exact (validated_ok_iff s).trans (packVerdict_iff_checksumBits h3 hn)
  · rintro s s' t t' k h h' hr' hwcount (rfl : k = s.opCount / 3) hok hentropy ⟨b, hb, hne⟩
    obtain ⟨h3, hn, rfl⟩ := eq_validated_of_reachedPack h (.inl hok)
    obtain ⟨h3', hn', rfl⟩ := eq_validated_of_reachedPack h' hr'
    have hcount : s'.opCount = s.opCount := congrArg BitVec.toNat hwcount
    have hbytes : (validated s').mem.dataBytes (4 * (s.opCount / 3)) =
        (validated s).mem.dataBytes (4 * (s.opCount / 3)) :=
      Memory.dataBytes_congr fun a ha => data_eq_of_dbit fun p hp => hentropy p (by omega)
    obtain ⟨hv, _, _⟩ | ⟨_, _, hreason⟩ := validated_result_cases s
    · have hbits := (packVerdict_iff_checksumBits h3 hn).1 hv b hb
      obtain ⟨hv', _, _⟩ | ⟨_, hanswer⟩ := validated_result_cases s'
      · have hbits' := (packVerdict_iff_checksumBits h3' hn').1 hv' b (by rwa [hcount])
        rw [hcount, hbytes] at hbits'
        exact absurd (hbits'.trans hbits.symm) hne
      · exact hanswer
    · rw [hreason] at hok
      cases hok

end Sys2Proof.Machine

/-! ## Completion, NOP and the step of the engine (spec/43_control.md R170 to R174, spec/00_scope.md R3) -/

namespace Sys2Proof.Machine

/-! ### A command in flight completes (spec/43_control.md R172, R174) -/

/-- The engine's turn with a command in flight is one step, and it is the completion. -/
theorem step_engine_completes {s : State} (hturn : s.nextTurn = .engine) (hb : s.status.busy = true) :
    ∃ t, step s = .next t ∧ t.status.busy = false ∧ t.status.done = true := by
  obtain ⟨t, ht, -, -⟩ := engineMove_withEnv s.popTurn s.env
  exact ⟨t, (step_engine hturn).trans ht, engineMove_ends (s := s.popTurn) hb ht⟩

/-- A turn of the host with a command in flight is one step, and the command stays in flight. -/
theorem step_host_busy {s : State} (hturn : s.nextTurn = .host) (hb : s.status.busy = true) :
    ∃ t, step s = .next t ∧ t.status.busy = true := by
  obtain ⟨hbusy, -⟩ := frozen_hostMove (s := s.popTurn) hb
  exact ⟨_, step_host hturn, hbusy.trans hb⟩

/-- Settles O8, by induction on the schedule: it names the host, and the command stays in flight, or the engine, whose
step is the completion; and where it is over the engine moves (log entry 4). -/
theorem everyAcceptedCommandCompletes : Obligations.EveryAcceptedCommandCompletes := by
  intro s
  induction hturns : s.env.turns generalizing s with
  | nil =>
    intro hb _
    obtain ⟨t, hstep, hends⟩ := step_engine_completes ((nextTurn_nil hturns).trans (if_pos hb)) hb
    exact ⟨1, le_rfl, t, run_next hstep, hends⟩
  | cons turn rest ih =>
    intro hb hreset
    have hturn := nextTurn_cons hturns
    cases turn with
    | host =>
      obtain ⟨u, hstep, hu⟩ := step_host_busy hturn hb
      have hrest : u.env.turns = rest := by rw [(step_env hstep).1, hturns, List.tail_cons]
      obtain ⟨k, hk, t, hrun, hends⟩ := ih u hrest hu fun h => hreset (.tail _ h)
      exact ⟨k + 1, Nat.succ_le_succ hk, t, (run_next hstep).trans hrun, hends⟩
    | engine =>
      obtain ⟨t, hstep, hends⟩ := step_engine_completes hturn hb
      exact ⟨1, Nat.le_add_left 1 _, t, run_next hstep, hends⟩
    | reset => exact absurd (.head _) hreset

/-- The engine's step right after the acceptance of a command's word is `exec` of that command. -/
theorem engineMove_accept (s : State) (i : Instr) :
    engineMove (accept s (encode i)) = exec i (accept s (encode i)) :=
  engineMove_legal rfl (decode_encode i)

/-! ### NOP (spec/43_control.md R171) -/

theorem exec_nop (s : State) : exec .nop s = .next { s with status := okStatus s } := rfl

/-- NOP's word (spec/30_encoding.md R81). -/
theorem encode_nop : encode .nop = 0x00000000#32 := by decide

/-- The engine's step on an accepted NOP leaves the acceptance and the STATUS of a completion without error. -/
theorem engineMove_accept_nop (s : State) :
    engineMove (accept s 0x00000000#32) = .next { accept s 0x00000000#32 with status := okStatus s } := by
  rw [← encode_nop, engineMove_accept, exec_nop]
  rfl

/-- STATUS after a first completion without error: DONE alone (spec/10_state.md R25, R38). -/
theorem toWord_okStatus_of_reset {s : State} (h : s.status = State.reset.status) :
    (okStatus s).toWord = 0x00000002#32 := by
  unfold okStatus
  rw [h]
  decide

/-- Settles O10: NOP's completion is its whole effect, and the write of its word to CMD is the acceptance. -/
theorem nopCompletes : Obligations.NopCompletes := by
  refine ⟨decode_encode .nop, fun s => ⟨_, exec_nop s, rfl, Bool.and_true _⟩, ?_⟩
  rw [busWrite_of_target target_cmd (.inl rfl)]
  exact ⟨_, engineMove_accept_nop State.reset, toWord_okStatus_of_reset rfl⟩

/-- Settles O45: the example is the handshake of `handshakeSeesTheCompletion` from reset with NOP's word, and the host
finds the block past its wait as NOP's completion left it. -/
theorem nopExampleRunsUnderEverySchedule : Obligations.NopExampleRunsUnderEverySchedule := by
  intro turns s hreset hs
  have hstatus : s.status = State.reset.status := hs ▸ rfl
  have hscript : s.env.script = [.write 0x000C#14 0x00000000#32, .poll] := hs ▸ rfl
  have hturns : s.env.turns = turns := hs ▸ rfl
  subst hturns
  obtain ⟨hends, hsees⟩ := handshakeSeesTheCompletion s 0x00000000#32 [] (congrArg Status.busy hstatus) hreset hscript
  refine ⟨hends, fun k t hrun hover => ?_⟩
  obtain ⟨u, hu, ht, -, -⟩ := hsees k t hrun hover
  rw [engineMove_accept_nop] at hu
  injection hu with hu
  subst hu
  rw [ht]
  exact toWord_okStatus_of_reset hstatus

/-! ### The step of the engine on the command in flight (spec/43_control.md R172, spec/00_scope.md R3) -/

/-- The state that has a word placed to run next is, with that turn taken, the one that has accepted the word (log entry
9). -/
theorem popTurn_withFetchWord (s : State) (v : Word) : (s.withFetchWord 32 v.toNat).popTurn = accept s v := by
  have hword : BitVec.ofNat 32 (v.toNat % 2 ^ 32) = v := by
    rw [Nat.mod_eq_of_lt v.isLt, BitVec.ofNat_toNat, BitVec.setWidth_eq]
  unfold State.withFetchWord
  rw [hword]
  rfl

/-- Settles O4: a step is the move of the agent whose turn it is, and the engine's is `exec` of the command decoded. -/
theorem stepRunsTheCommandInFlight : Obligations.StepRunsTheCommandInFlight := by
  refine ⟨fun s i hturn hb hd => ?_, fun _ => step_engine_idle, fun _ => step_host, fun _ => step_reset, fun s i => ?_⟩
  · exact (step_engine hturn).trans (engineMove_legal (s := s.popTurn) hb hd)
  · rw [step_engine (nextTurn_cons (rest := s.env.turns) rfl), popTurn_withFetchWord, engineMove_accept]

end Sys2Proof.Machine

/-! ## Errors, dropped writes and the interrupt (spec/60_exceptions.md R192 to R195) -/

namespace Sys2Proof.Machine

/-! ### How a command ends (spec/60_exceptions.md R192, R193) -/

/-- Settles O26: the branches of each command's rule end as R193 says or in a named error, and VALIDATE's in an answer. -/
theorem completionsArePreciseOrSuccessful : Obligations.CompletionsArePreciseOrSuccessful := by
  intro i s
  cases i with
  | nop => exact ⟨_, exec_nop s, .inl rfl⟩
  | append =>
    obtain ⟨_, _, e⟩ | ⟨_, e⟩ | ⟨_, _, e⟩ := exec_append_cases s
    · exact ⟨_, e, .inl rfl⟩
    · exact ⟨_, e, .inr ⟨.invalidEntropyLength, nofun, rfl⟩⟩
    · exact ⟨_, e, .inr ⟨.lengthRange, nofun, rfl⟩⟩
  | verify =>
    obtain ⟨_, _, _, e⟩ | ⟨_, e⟩ | ⟨_, _, e⟩ := exec_verify_cases s
    · exact ⟨_, e, .inl rfl⟩
    · exact ⟨_, e, .inr ⟨.invalidEntropyLength, nofun, rfl⟩⟩
    · exact ⟨_, e, .inr ⟨.lengthRange, nofun, rfl⟩⟩
  | unpack =>
    obtain ⟨_, e⟩ | ⟨_, e⟩ := exec_unpack_cases s
    · exact ⟨_, e, .inl rfl⟩
    · exact ⟨_, e, .inr ⟨.lengthRange, nofun, rfl⟩⟩
  | pack z =>
    obtain ⟨_, _, _, e⟩ | ⟨_, e⟩ | ⟨_, _, _, e⟩ := exec_pack_cases z s
    · exact ⟨_, e, .inl rfl⟩
    · exact ⟨_, e, .inr ⟨.lengthRange, nofun, rfl⟩⟩
    · exact ⟨_, e, .inr ⟨.encodingOverflow, nofun, rfl⟩⟩
  | encode =>
    obtain ⟨_, _, e⟩ | ⟨_, e⟩ | ⟨_, _, e⟩ := exec_encode_cases s
    · exact ⟨_, e, .inl rfl⟩
    · exact ⟨_, e, .inr ⟨.invalidEntropyLength, nofun, rfl⟩⟩
    · exact ⟨_, e, .inr ⟨.lengthRange, nofun, rfl⟩⟩
  | validate =>
    obtain ⟨_, _, e⟩ | ⟨_, e⟩ | ⟨_, _, e⟩ | ⟨_, _, _, e⟩ | ⟨_, _, _, _, e⟩ := exec_validate_cases s <;>
      exact ⟨_, e, .inl rfl⟩

/-! ### Writes while a command runs (spec/60_exceptions.md R194) -/

/-- The offsets of CMD, of the three writable count and length registers and of the RAM windows reach targets whose
writes BUSY gates (spec/20_memory.md R58). -/
theorem exists_writeGated_target {off : Offset} (halign : off.toNat % 4 = 0)
    (h : off.toNat = 0x000C ∨ off.toNat = 0x0010 ∨ off.toNat = 0x0014 ∨ off.toNat = 0x0018 ∨
      (0x1000 ≤ off.toNat ∧ off.toNat < 0x1420) ∨ (0x2000 ≤ off.toNat ∧ off.toNat < 0x2600)) :
    ∃ t, target off = some t ∧ writeGated t = true := by
  obtain h | h | h | h | h | h := h
  · exact ⟨.cmd, BitVec.eq_of_toNat_eq (y := 0x000C#14) h ▸ target_cmd, rfl⟩
  · exact ⟨.entLen, BitVec.eq_of_toNat_eq (y := 0x0010#14) h ▸ target_entLen, rfl⟩
  · exact ⟨.extLen, BitVec.eq_of_toNat_eq (y := 0x0014#14) h ▸ target_extLen, rfl⟩
  · exact ⟨.wcount, BitVec.eq_of_toNat_eq (y := 0x0018#14) h ▸ target_wcount, rfl⟩
  · obtain ⟨j, hj, rfl⟩ : ∃ j < 264, off = BitVec.ofNat 14 (0x1000 + 4 * j) :=
      ⟨(off.toNat - 0x1000) / 4, by omega, by bv_omega⟩
    exact ⟨.dataWindow j, target_data hj, rfl⟩
  · obtain ⟨j, hj, rfl⟩ : ∃ j < 384, off = BitVec.ofNat 14 (0x2000 + 4 * j) :=
      ⟨(off.toNat - 0x2000) / 4, by omega, by bv_omega⟩
    exact ⟨.wordWindow j, target_word hj, rfl⟩

/-- Settles O32: a gated target drops the write, and the five other registers take it as while idle. -/
theorem busyWritesAreDropped : Obligations.BusyWritesAreDropped := by
  rintro s off v a rfl hb
  refine ⟨fun halign hgated => ?_, fun h => ?_, fun h => ?_, fun h => ?_⟩
  · obtain ⟨t, ht, hg⟩ := exists_writeGated_target halign hgated
    rw [busWrite_of_busy ht hb hg]
    exact ⟨rfl, busResp_of_target ht, rfl⟩
  · obtain rfl : off = 0x0004#14 := BitVec.eq_of_toNat_eq h
    exact ⟨busWrite_of_target target_ctrl (.inr rfl) v, busResp_of_target target_ctrl⟩
  · obtain rfl : off = 0x0008#14 := BitVec.eq_of_toNat_eq h
    exact ⟨busWrite_of_target target_status (.inr rfl) v, busResp_of_target target_status⟩
  · obtain h | h | h := h
    · obtain rfl : off = 0x0000#14 := BitVec.eq_of_toNat_eq h
      exact ⟨busWrite_of_target target_id (.inr rfl) v, busResp_of_target target_id⟩
    · obtain rfl : off = 0x001C#14 := BitVec.eq_of_toNat_eq h
      exact ⟨busWrite_of_target target_wfull (.inr rfl) v, busResp_of_target target_wfull⟩
    · obtain rfl : off = 0x0020#14 := BitVec.eq_of_toNat_eq h
      exact ⟨busWrite_of_target target_result (.inr rfl) v, busResp_of_target target_result⟩

/-! ### The interrupt (spec/60_exceptions.md R195) -/

/-- The engine never writes CTRL (spec/10_state.md R37). -/
theorem engineMove_ctrl {s t : State} (hb : s.status.busy = true) (h : engineMove s = .next t) : t.ctrl = s.ctrl := by
  cases hd : decode s.lcmd with
  | ok i =>
    rw [engineMove_legal hb hd] at h
    exact (exec_writesOnly h).ctrl
  | error reason =>
    rw [engineMove_illegal hb hd] at h
    exact complete_error_next (r := .error .illegalCommand) rfl h ▸ rfl

/-- The output after a write to CTRL, which BUSY never gates: the new IRQ_EN and DONE. -/
theorem irq_busWrite_ctrl (s : State) (v : Word) : (busWrite s 0x0004#14 v).irq = (v.getLsbD 0 && s.status.done) := by
  rw [busWrite_of_target target_ctrl (.inr rfl)]
  rfl

/-- The output after a write to STATUS, which BUSY never gates: IRQ_EN and what the write leaves of DONE. -/
theorem irq_busWrite_status (s : State) (v : Word) :
    (busWrite s 0x0008#14 v).irq = (s.ctrl.irqEn && (s.status.done && !v.getLsbD 1)) := by
  rw [busWrite_of_target target_status (.inr rfl)]
  rfl

/-- Settles O39: a completion sets DONE and keeps CTRL, and the two writes reach IRQ_EN and DONE. -/
theorem interruptFollowsCompletion : Obligations.InterruptFollowsCompletion := by
  refine ⟨fun s => rfl, fun s t hb h => ?_, fun s v hv => ?_, fun s v hv => ?_, fun s v hv => ?_⟩
  · obtain ⟨_, hdone⟩ := engineMove_ends hb h
    unfold State.irq
    rw [engineMove_ctrl hb h, hdone, Bool.and_true]
  · rw [irq_busWrite_status, hv, Bool.not_true, Bool.and_false, Bool.and_false]
  · rw [irq_busWrite_ctrl, hv, Bool.false_and]
  · rw [irq_busWrite_ctrl, hv, Bool.true_and]

end Sys2Proof.Machine

/-! ## PACK after an UNPACK with a trailing group (spec/70_reset_and_hazards.md R227) -/

namespace Sys2Proof.Machine

/-- A partial group is one group more than the complete ones (spec/40_bitpacker.md R102). -/
theorem groupCount_eq_fullCount_add_one {n : Nat} (h : 8 * n % 11 ≠ 0) : groupCount n = fullCount n + 1 := by
  rw [groupCount_eq, fullCount_eq]
  omega

/-- The groups of a read that ends in a partial one have more bits than the buffer (spec/40_bitpacker.md R103). -/
theorem bits_lt_groupCount {n : Nat} (h : 8 * n % 11 ≠ 0) : 8 * n < 11 * groupCount n := by
  rw [groupCount_eq]
  omega

/-- Settles O18: UNPACK counts its partial group in WCOUNT, and PACK finds no room for the last bits of so many groups. -/
theorem packAfterTrailingGroupOverflows : Obligations.PackAfterTrailingGroupOverflows := by
  intro s t u z hn hpartial h hext hwcount
  obtain ⟨_, e⟩ | ⟨hrange, _⟩ := exec_unpack_cases s
  · rw [e] at h
    cases h
    have hG : (countOf (groupCount s.opN)).toNat = groupCount s.opN := toNat_countOf (groupCount_le hn)
    have hF : (countOf (fullCount s.opN)).toNat = fullCount s.opN := toNat_countOf (fullCount_le hn)
    have hcounts : (countOf (groupCount s.opN)).toNat = (countOf (fullCount s.opN)).toNat + 1 := by
      rw [hG, hF, groupCount_eq_fullCount_add_one hpartial]
    refine ⟨hcounts, ?_⟩
    have hN : u.opN = s.opN := congrArg BitVec.toNat hext
    have hcnt : u.opCount = groupCount s.opN := (congrArg BitVec.toNat hwcount).trans hG
    have hover : 8 * u.opN < 11 * u.opCount := hN ▸ hcnt ▸ bits_lt_groupCount hpartial
    obtain ⟨_, _, hfit, _⟩ | ⟨hrange, _⟩ | ⟨_, _, _, e⟩ := exec_pack_cases z u
    · exact absurd hfit hover.not_ge
    · exact absurd hrange (not_or.2 ⟨(hN.trans_le hn).not_gt, (hcnt.trans_le (groupCount_le hn)).not_gt⟩)
    · exact e
  · exact absurd hn hrange.not_ge

end Sys2Proof.Machine

/-! ## The invariant at power-on (spec/10_state.md R38) -/

namespace Sys2Proof.Machine

/-- Settles O6: the registers are those `blockReset` leaves, and a RAM with no cell listed is in canonical form. -/
theorem invariantHoldsAtReset : Obligations.InvariantHoldsAtReset := by
  obtain ⟨_, hwfull, hreason, hvalid⟩ := blockReset_inv State.reset
  have hmem : State.reset.mem.wf = true := rfl
  exact ⟨hmem, hwfull, hreason, hvalid⟩

end Sys2Proof.Machine
